-- ==== Sys2Proof/Word.lean ====
section
/-! DEFINITION. The word types of the block and nothing else (00_scope.md R7: `W_BUS`, `W_VAL`, `W_DIG`). -/

namespace Sys2Proof

/-- A 32-bit bus word or command word (`W_BUS`, 20_memory.md R60). -/
abbrev Word := BitVec 32

/-- A value register's content (`W_VAL`, 00_scope.md R7). -/
abbrev Value := BitVec 128

/-- A digit, residue or modulus entry (`W_DIG`, 00_scope.md R7). -/
abbrev Digit := BitVec 16

/-- A byte lane of the bus (20_memory.md R68). -/
abbrev Byte := BitVec 8

end Sys2Proof
end

