-- ==== Sys2Proof/Config.lean ====
section
/-! DEFINITION. What is fixed for this hardware (00_scope.md R7), the parameter the spec leaves OPEN (`BASE`), and the
free value of an unspecified read. `LATENCY` is no constant: it is the place of the engine's turn in the agenda
(Machine/State.lean, log entry 1). -/

namespace Sys2Proof.Config

/-- `N_DIG`, the entries of each digit buffer (00_scope.md R7). -/
def nDig : Nat := 128

/-- The window's size in bytes, 4 KiB (20_memory.md R62). -/
def windowSize : Nat := 0x1000

/-- The constant `ID` reads: TAG "SW", MAJOR 1, MINOR 0 (10_state.md R21). -/
def idWord : Word := 0x53570100#32

/-- The constant `PARAM` reads: NDIG 0x80, VWORDS 4, DBITS 0x10 (10_state.md R22). -/
def paramWord : Word := 0x00100480#32

/-- The platform's choice of `BASE`, counted in windows, so that `BASE` is a multiple of 0x1000 by construction
(20_memory.md R62, OPEN). FREE VALUE, log entry 6: no body, nothing constrains it. -/
opaque basePage : Nat

/-- `BASE`, the bus address of offset 0 (20_memory.md R62). -/
def base : Nat := basePage * windowSize

/-- The value a data-register read returns while `BUSY = 1`, before reserved bits are cleared (20_memory.md R67: "A
model draws it freely"). FREE VALUE, log entry 3: no body. It is applied to the number of values drawn before and to
the offset read, so each draw is a fresh one. -/
opaque unspecifiedRead : Nat → Nat → Word

end Sys2Proof.Config
end

