-- ==== Sys2Proof/Machine/State.lean ====
section
/-! DEFINITION. The machine's state as plain data (10_state.md R20), what may come next on the bus (20_memory.md R72), and
the reasons a step or an access can end otherwise. -/

namespace Sys2Proof.Machine

/-- Why an access or a step cannot be served. -/
inductive Fault where
  /-- A bus error: raised by `checkAccess` for an access that is not a whole aligned 32-bit word inside the window
  (20_memory.md R60, R65: "A model treats it as a fault of the host's access"). It is delivered to the accessing master
  in the reply and changes no state of the block (60_exceptions.md R249), so no step of the machine ends in it. Safe. -/
  | busError
deriving DecidableEq, Repr

/-- Why an instruction has no meaning. -/
inductive Refusal where
  /-- Raised only by an arm of `exec` for a command that has no meaning yet. No arm does: every command of the opcode
  table is modelled. Safe. -/
  | notModelled (mnemonic : String)
deriving DecidableEq, Repr

/-- The width of a bus access (20_memory.md R65: byte and halfword accesses are refused). -/
inductive AccessSize where
  | byte
  | half
  | word
deriving DecidableEq, Repr

/-- One host access: the primitives `BusRead(off)` and `BusWrite(off, v)`, with the width asked for
(20_memory.md R60, R65). `off` is the byte offset from `BASE`. -/
inductive Access where
  | read (size : AccessSize) (off : Nat)
  | write (size : AccessSize) (off : Nat) (v : Word)
deriving DecidableEq, Repr

/-- One turn of the total order of atomic steps (20_memory.md R72), with the reset input (70_reset_and_hazards.md R273). -/
inductive Turn where
  /-- A host access. -/
  | host (a : Access)
  /-- The engine's turn: its completion step if one is enabled (40_command.md R121). -/
  | engine
  /-- Power-on or the platform's reset input, one step (70_reset_and_hazards.md R273). -/
  | reset
deriving DecidableEq, Repr

/-- What the bus answers to the host's last access. -/
inductive Reply where
  /-- The 32 bits of a `BusRead` (20_memory.md R60). -/
  | data (v : Word)
  /-- A `BusWrite` was performed, or ignored as the register's rule says. -/
  | written
  /-- The access was refused (20_memory.md R65: no data is returned). -/
  | fault (r : Fault)
deriving DecidableEq, Repr

/-- A digit buffer, `N_DIG = 128` entries of 16 bits (00_scope.md R7, 10_state.md R39 to R41). -/
abbrev Buffer := Vector Digit 128

/-- The whole machine. The fields from `ie` to `y` are the architectural state of 10_state.md R20, less what has no
storage: `ID` and `PARAM` (constants), `CTRL.SRST` (reads 0), `STATUS.ERR` and `IRQ` (derived). The in-flight command
is `busy` with `cmd` (10_state.md R43). The last three fields are the model's own. -/
structure State where
  /-- `CTRL.IE` (10_state.md R23). -/
  ie : Bool
  /-- `STATUS.BUSY` (10_state.md R27). -/
  busy : Bool
  /-- `STATUS.DONE` (10_state.md R28). -/
  done : Bool
  /-- `STATUS.COLL` (10_state.md R30). -/
  coll : Bool
  /-- `STATUS.ERRCODE` (10_state.md R31). -/
  errcode : BitVec 4
  /-- `STATUS.RLEN` (10_state.md R32). -/
  rlen : BitVec 8
  /-- `STATUS.ERRIDX` (10_state.md R33). -/
  erridx : BitVec 8
  /-- `STATUS.ERRY` (10_state.md R34). -/
  erry : Bool
  /-- `CMD`, the last accepted command word (10_state.md R25). -/
  cmd : Word
  /-- `QBASE` (10_state.md R35). -/
  qbase : Digit
  /-- `VAL` (10_state.md R36). -/
  val : Value
  /-- `OPA` (10_state.md R37). -/
  opa : Value
  /-- `OPM` (10_state.md R38). -/
  opm : Value
  /-- `MOD[0..127]` (10_state.md R39). -/
  mod : Buffer
  /-- `X[0..127]` (10_state.md R40). -/
  x : Buffer
  /-- `Y[0..127]` (10_state.md R41). -/
  y : Buffer
  /-- MODEL: the turns still to come, first one first (20_memory.md R72; log entry 1). -/
  agenda : List Turn
  /-- MODEL: how many unspecified values have been drawn (20_memory.md R67; log entry 3). -/
  draws : Nat
  /-- MODEL: the bus's answer to the last host access (log entry 4). -/
  reply : Option Reply
deriving DecidableEq, Repr

/-- The machine right after reset: every register at the value of 70_reset_and_hazards.md R270, no command in flight. The
model's own fields are empty (DESIGN CHOICE, log entries 1, 3, 4). -/
def State.reset : State where
  ie := false
  busy := false
  done := false
  coll := false
  errcode := 0
  rlen := 0
  erridx := 0
  erry := false
  cmd := 0
  qbase := 0
  val := 0
  opa := 0
  opm := 0
  mod := Vector.replicate 128 0
  x := Vector.replicate 128 0
  y := Vector.replicate 128 0
  agenda := []
  draws := 0
  reply := none

end Sys2Proof.Machine
end

