-- ==== Sys2Proof/Machine/Flags.lean ====
section
/-! DEFINITION. Every flag the block has: the error codes (60_exceptions.md R240), the word `STATUS` reads (10_state.md
R26), the derived bits `ERR` (R29) and `IRQ` (R47). There are no others (10_state.md R44). -/

namespace Sys2Proof.Machine

/-- The named error codes (60_exceptions.md R240). -/
inductive ErrCode where
  | none
  | illegal
  | length
  | modulus
  | digit
  | noInv
  | overflow
  | carry
  /-- Reserved, never raised (60_exceptions.md R241). -/
  | unsupported
  /-- Reserved, never raised (60_exceptions.md R241). -/
  | nonFactor
deriving DecidableEq, Repr

/-- The number `STATUS.ERRCODE` shows for each name (60_exceptions.md R240). -/
def ErrCode.code (e : ErrCode) : BitVec 4 :=
  match e with
  | .none => 0
  | .illegal => 1
  | .length => 2
  | .modulus => 3
  | .digit => 4
  | .noInv => 5
  | .overflow => 6
  | .carry => 7
  | .unsupported => 8
  | .nonFactor => 9

/-- `STATUS.ERR`, always `(ERRCODE ≠ 0)` (10_state.md R29). -/
def State.err (s : State) : Bool := s.errcode != 0

/-- `IRQ = CTRL.IE AND STATUS.DONE` (10_state.md R47, 60_exceptions.md R250). -/
def State.irq (s : State) : Bool := s.ie && s.done

/-- A field's bits placed in a register word with its least significant bit at `pos` (00_scope.md R8). -/
def placeField {n : Nat} (v : BitVec n) (pos : Nat) : Word := v.setWidth 32 <<< pos

/-- The word a read of `STATUS` returns, each field at its place, the reserved bits 0 (10_state.md R26). -/
def State.statusWord (s : State) : Word :=
  placeField (BitVec.ofBool s.busy) 0 ||| placeField (BitVec.ofBool s.done) 1 ||| placeField (BitVec.ofBool s.err) 2 |||
    placeField (BitVec.ofBool s.coll) 3 ||| placeField s.errcode 4 ||| placeField s.rlen 8 ||| placeField s.erridx 16 |||
    placeField (BitVec.ofBool s.erry) 24

/-- The word a read of `CTRL` returns: `IE` in bit 0, `SRST` and the reserved bits 0 (10_state.md R23). -/
def State.ctrlWord (s : State) : Word := placeField (BitVec.ofBool s.ie) 0

end Sys2Proof.Machine
end

