-- ==== Sys2Proof/Machine/Ops.lean ====
section
/-! DEFINITION. The named operations over the registers: the digit buffers, the 128-bit registers as words, the
lifecycle of a command (issue, completion, acknowledgement), the one way an error is taken (40_command.md R126), a
collision, and reset. -/

namespace Sys2Proof.Machine

/-! ### Digit buffers (10_state.md R39 to R41) -/

/-- The first `n` entries as numbers, entry 0 first: `B[0..n-1]` (00_scope.md R10, R11). -/
def digits (b : Buffer) (n : Nat) : List Nat := (b.toList.take n).map BitVec.toNat

/-- `B[i] <- ds[i]` for every position of `ds`, the other entries kept (00_scope.md R10). -/
def writeDigits (b : Buffer) (ds : List Nat) : Buffer :=
  ⟨((ds.take 128).map (BitVec.ofNat 16) ++ b.toList.drop ds.length).toArray, by simp; omega⟩

/-! ### 128-bit registers as four words (10_state.md R36 to R38, 20_memory.md R68) -/

/-- Word `j` of a 128-bit register, the least significant word first (10_state.md R36). -/
def wordOf (v : Value) (j : Fin 4) : Word := v.extractLsb' (32 * j.val) 32

/-- The register with word `j` replaced, the other three words kept (20_memory.md R69). -/
def setWordOf (v : Value) (j : Fin 4) (w : Word) : Value :=
  (v &&& ~~~(0xFFFFFFFF#128 <<< (32 * j.val))) ||| (w.setWidth 128 <<< (32 * j.val))

/-- Byte lane `j` of a register's word, at bus address `BASE + off + j` (20_memory.md R68). -/
def byteLane (w : Word) (j : Fin 4) : Byte := w.extractLsb' (8 * j.val) 8

/-! ### The lifecycle of a command (40_command.md) -/

/-- Issue: the word is latched and every report field cleared; `COLL` and the data registers are kept
(40_command.md R120). -/
def State.issue (s : State) (w : Word) : State :=
  { s with cmd := w, busy := true, done := false, errcode := 0, erridx := 0, erry := false, rlen := 0 }

/-- What a completion reports in `STATUS` (10_state.md R31 to R34). -/
structure Report where
  code : ErrCode
  idx : Nat
  inY : Bool
  rlen : Nat
deriving DecidableEq, Repr

/-- The end of every completion: the report is written, `BUSY <- 0`, `DONE <- 1`; `COLL` is kept (40_command.md R121,
10_state.md R30 to R34; log entry 5). -/
def State.complete (s : State) (r : Report) : State :=
  { s with
    busy := false, done := true, errcode := r.code.code, erridx := BitVec.ofNat 8 r.idx, erry := r.inY
    rlen := BitVec.ofNat 8 r.rlen }

/-- Success with a digit vector of length `n` left in `X`, or `n = 0` (40_command.md R127). -/
def State.succeed (s : State) (n : Nat) : State := s.complete ⟨.none, 0, false, n⟩

/-- The failure a check finds: `raise E(idx, y)` (00_scope.md R10). -/
structure Raise where
  code : ErrCode
  idx : Nat := 0
  inY : Bool := false
deriving DecidableEq, Repr

/-- TAKING AN ERROR, the one way a command fails: `raise E(idx, y)` writes the code and the position, `RLEN <- 0`, no data
register, and the completion ends (40_command.md R126, R121). -/
def State.raise (s : State) (r : Raise) : State := s.complete ⟨r.code, r.idx, r.inY, 0⟩

/-- A carry out of the top digit: reported after the digits and `RLEN` are written as on success
(43_base_q_adder.md R203). -/
def State.carryOut (s : State) (n : Nat) : State := s.complete ⟨.carry, 0, false, n⟩

/-- The end of a command's body: its failure is taken, or its result is stored by `store` (40_command.md R121). -/
def State.conclude {α : Type} (s : State) (plan : Except Raise α) (store : State → α → State) : State :=
  match plan with
  | .error r => s.raise r
  | .ok a => store s a

/-- RETURNING FROM A COMPLETION, a write to `STATUS`: `DONE` is cleared by a 1 in bit 1 and `COLL` by a 1 in bit 3,
nothing else changes (10_state.md R26, 60_exceptions.md R247). -/
def State.acknowledge (s : State) (v : Word) : State :=
  { s with done := s.done && !v.getLsbD 1, coll := s.coll && !v.getLsbD 3 }

/-- An illegal command word completes with `E_ILLEGAL(0, 0)` (40_command.md R123). -/
def State.illegalCommand (s : State) : State := s.raise ⟨.illegal, 0, false⟩

/-! ### Collision and reset -/

/-- A write that is ignored because the engine is busy: only `COLL <- 1` (10_state.md R30, 20_memory.md R66). -/
def State.collide (s : State) : State := { s with coll := true }

/-- Every register to its reset value, whatever was in flight (70_reset_and_hazards.md R270, R271). The model's own fields
are kept: the turns to come, the values drawn, the last answer (log entry 12). -/
def State.hardReset (s : State) : State :=
  { State.reset with agenda := s.agenda, draws := s.draws, reply := s.reply }

/-- A write to `CTRL`: with bit 1 set a soft reset, `IE` then 0 whatever bit 0 is; otherwise only `IE <- v[0]`
(10_state.md R23, 70_reset_and_hazards.md R272). -/
def State.writeCtrl (s : State) (v : Word) : State :=
  if v.getLsbD 1 then s.hardReset else { s with ie := v.getLsbD 0 }

end Sys2Proof.Machine
end

