-- ==== Sys2Proof/Machine/Bus.lean ====
section
/-! DEFINITION. The register window as the host sees it: the map (20_memory.md R63), which accesses are bus errors (R65),
reads (R64, R67), writes (R64, R66) and the answer on the bus. -/

namespace Sys2Proof.Machine

/-- What stands at an offset of the window (20_memory.md R63). -/
inductive Reg where
  | id
  | param
  | ctrl
  | status
  | cmd
  | qbase
  | val (j : Fin 4)
  | opa (j : Fin 4)
  | opm (j : Fin 4)
  | mod (i : Fin 128)
  | x (i : Fin 128)
  | y (i : Fin 128)
  | reserved
deriving DecidableEq, Repr

/-- The window's map (20_memory.md R63). -/
def regAt (off : Nat) : Reg :=
  if off = 0x000 then .id
  else if off = 0x004 then .param
  else if off = 0x008 then .ctrl
  else if off = 0x00C then .status
  else if off = 0x010 then .cmd
  else if off = 0x014 then .qbase
  else if off < 0x020 then .reserved
  else if off < 0x030 then .val (Fin.ofNat 4 ((off - 0x020) / 4))
  else if off < 0x040 then .opa (Fin.ofNat 4 ((off - 0x030) / 4))
  else if off < 0x050 then .opm (Fin.ofNat 4 ((off - 0x040) / 4))
  else if off < 0x400 then .reserved
  else if off < 0x600 then .mod (Fin.ofNat 128 ((off - 0x400) / 4))
  else if off < 0x800 then .x (Fin.ofNat 128 ((off - 0x600) / 4))
  else if off < 0xA00 then .y (Fin.ofNat 128 ((off - 0x800) / 4))
  else .reserved

/-- The data registers: their reads are unspecified and their writes ignored while `BUSY = 1` (20_memory.md R66, R67). -/
def Reg.isData (r : Reg) : Bool :=
  match r with
  | .id | .param | .ctrl | .status | .cmd | .reserved => false
  | .qbase | .val _ | .opa _ | .opm _ | .mod _ | .x _ | .y _ => true

/-- The registers whose write while busy is a collision: the data registers and `CMD` (20_memory.md R66). -/
def Reg.collides (r : Reg) : Bool := r.isData || r == .cmd

/-- The bits of a data register that are not reserved (10_state.md R35, R36, R39; 20_memory.md R64). -/
def Reg.usedBits (r : Reg) : Word :=
  match r with
  | .qbase | .mod _ | .x _ | .y _ => 0x0000FFFF#32
  | .id | .param | .ctrl | .status | .cmd | .val _ | .opa _ | .opm _ | .reserved => 0xFFFFFFFF#32

/-- The content of a register as a 32-bit word, reserved offsets and bits 0 (20_memory.md R64, R67). -/
def State.peek (s : State) (r : Reg) : Word :=
  match r with
  | .id => Config.idWord
  | .param => Config.paramWord
  | .ctrl => s.ctrlWord
  | .status => s.statusWord
  | .cmd => s.cmd
  | .qbase => s.qbase.setWidth 32
  | .val j => wordOf s.val j
  | .opa j => wordOf s.opa j
  | .opm j => wordOf s.opm j
  | .mod i => s.mod[i].setWidth 32
  | .x i => s.x[i].setWidth 32
  | .y i => s.y[i].setWidth 32
  | .reserved => 0

/-- The byte at bus address `addr`, as its register's content carries it in byte lane `addr mod 4`, or none outside the
window (20_memory.md R62, R68). -/
def State.windowByte (s : State) (addr : Nat) : Option Byte :=
  if Config.base ≤ addr ∧ addr < Config.base + Config.windowSize then
    some (byteLane (s.peek (regAt ((addr - Config.base) / 4 * 4))) (Fin.ofNat 4 (addr - Config.base)))
  else none

/-- Only a whole aligned 32-bit word inside the window is served; anything else is a bus error (20_memory.md R60, R65). -/
def checkAccess (size : AccessSize) (off : Nat) : Except Fault Unit :=
  if size = .word ∧ off % 4 = 0 ∧ off < Config.windowSize then .ok () else .error .busError

/-- A served `BusRead`: the register's content, or an unspecified value with reserved bits 0 for a data register while
`BUSY = 1` (20_memory.md R64, R67). No state of the block changes (R70). -/
def State.busRead (s : State) (off : Nat) : State :=
  if s.busy && (regAt off).isData then
    { s with
      reply := some (.data (Config.unspecifiedRead s.draws off &&& (regAt off).usedBits))
      draws := s.draws + 1 }
  else { s with reply := some (.data (s.peek (regAt off))) }

/-- The effect of a write on an idle block's register: a write to `CMD` issues, reserved bits are ignored
(10_state.md R21 to R41, 20_memory.md R64). -/
def State.writeReg (s : State) (r : Reg) (v : Word) : State :=
  match r with
  | .id => s
  | .param => s
  | .ctrl => s.writeCtrl v
  | .status => s.acknowledge v
  | .cmd => s.issue v
  | .qbase => { s with qbase := v.setWidth 16 }
  | .val j => { s with val := setWordOf s.val j v }
  | .opa j => { s with opa := setWordOf s.opa j v }
  | .opm j => { s with opm := setWordOf s.opm j v }
  | .mod i => { s with mod := s.mod.set i.val (v.setWidth 16) i.isLt }
  | .x i => { s with x := s.x.set i.val (v.setWidth 16) i.isLt }
  | .y i => { s with y := s.y.set i.val (v.setWidth 16) i.isLt }
  | .reserved => s

/-- A served `BusWrite`: ignored with `COLL <- 1` where it collides with a busy engine, otherwise the register's own
effect (20_memory.md R66). -/
def State.busWrite (s : State) (off : Nat) (v : Word) : State :=
  if s.busy && (regAt off).collides then s.collide else s.writeReg (regAt off) v

/-- One host access, served or answered with a bus error that changes nothing (20_memory.md R60, R65). -/
def State.hostAccess (s : State) (a : Access) : State :=
  match a with
  | .read size off =>
    match checkAccess size off with
    | .ok _ => s.busRead off
    | .error r => { s with reply := some (.fault r) }
  | .write size off v =>
    match checkAccess size off with
    | .ok _ => { s.busWrite off v with reply := some .written }
    | .error r => { s with reply := some (.fault r) }

end Sys2Proof.Machine
end

