-- ==== Sys2Proof/Syntax.lean ====
section
/-! DEFINITION. The nine commands, one constructor per row of spec/opcode_table.json (30_encoding.md R94). -/

namespace Sys2Proof

/-- A command. Lengths are the unsigned counts of `NX` and `NY`, with no scaling (30_encoding.md R92); `u` is the `U`
bit (30_encoding.md R93). Operand values come from registers, never from the command word. -/
inductive Instr where
  /-- `nop` (40_command.md R130). -/
  | nop
  /-- `modinv` (41_modular_inverse.md R151). -/
  | modinv
  /-- `crt.enc k` (44_crt.md R221). -/
  | crtEnc (k : Nat)
  /-- `crt.dec k` (44_crt.md R226). -/
  | crtDec (k : Nat)
  /-- `mr.dec k`, `mr.dec.u k` (42_mixed_radix.md R171). -/
  | mrDec (u : Bool) (k : Nat)
  /-- `mr.decp k`, `mr.decp.u k` (42_mixed_radix.md R175). -/
  | mrDecp (u : Bool) (k : Nat)
  /-- `mr.rec n`, `mr.rec.u n` (42_mixed_radix.md R178). -/
  | mrRec (u : Bool) (n : Nat)
  /-- `addq nx, ny` (43_base_q_adder.md R201). -/
  | addq (nx ny : Nat)
  /-- `addqc nx, ny` (43_base_q_adder.md R206). -/
  | addqc (nx ny : Nat)
deriving DecidableEq, Repr

end Sys2Proof
end

