-- ==== Sys2Proof/WellFormed.lean ====
section
/-! DEFINITION. Which commands a command word can carry: each length fits its 8-bit field (30_encoding.md R90, R92). A
length of 129 to 255 is well formed: "bad length" is a property of the value, found at completion (R98). -/

namespace Sys2Proof

/-- A length fits the 8-bit field `NX` or `NY` (30_encoding.md R90). -/
def lengthFits (n : Nat) : Bool := decide (n < 256)

/-- Every length of the command fits its field (30_encoding.md R90, R94). -/
def Instr.wellFormed (i : Instr) : Bool :=
  match i with
  | .nop => true
  | .modinv => true
  | .crtEnc k => lengthFits k
  | .crtDec k => lengthFits k
  | .mrDec _ k => lengthFits k
  | .mrDecp _ k => lengthFits k
  | .mrRec _ n => lengthFits n
  | .addq nx ny => lengthFits nx && lengthFits ny
  | .addqc nx ny => lengthFits nx && lengthFits ny

end Sys2Proof
end

