-- ==== Sys2Proof/Decode.lean ====
section
/-! DEFINITION. The command word: its fields (30_encoding.md R90), the opcode map (R94), the decoder, total on all
2^32 words and rejecting by name (R95 to R97), and after it the encoder (R99). A command is always one 32-bit word
(R91), so there is no length to determine. -/

namespace Sys2Proof

/-- Field `OP`, bits [4:0] (30_encoding.md R90). -/
def opField (w : Word) : BitVec 5 := w.extractLsb' 0 5

/-- Field `U`, bit [5] (30_encoding.md R90). -/
def uField (w : Word) : Bool := w.getLsbD 5

/-- Field `RSV0`, bits [7:6] (30_encoding.md R90). -/
def rsv0Field (w : Word) : BitVec 2 := w.extractLsb' 6 2

/-- Field `NX`, bits [15:8], an unsigned count (30_encoding.md R90, R92). -/
def nxField (w : Word) : Nat := (w.extractLsb' 8 8).toNat

/-- Field `NY`, bits [23:16], an unsigned count (30_encoding.md R90, R92). -/
def nyField (w : Word) : Nat := (w.extractLsb' 16 8).toNat

/-- Field `RSV1`, bits [31:24] (30_encoding.md R90). -/
def rsv1Field (w : Word) : BitVec 8 := w.extractLsb' 24 8

/-- One row of the opcode map: its match and mask, and the command its operand fields make (30_encoding.md R94). -/
structure Row where
  pattern : Word
  mask : Word
  build : Word → Instr

/-- The opcode map, in the table's order (30_encoding.md R94). -/
def opcodeTable : List Row :=
  [ ⟨0x00000000#32, 0xFFFFFFFF#32, fun _ => .nop⟩,
    ⟨0x00000001#32, 0xFFFFFFFF#32, fun _ => .modinv⟩,
    ⟨0x00000002#32, 0xFFFF00FF#32, fun w => .crtEnc (nxField w)⟩,
    ⟨0x00000003#32, 0xFFFF00FF#32, fun w => .crtDec (nxField w)⟩,
    ⟨0x00000004#32, 0xFFFF00DF#32, fun w => .mrDec (uField w) (nxField w)⟩,
    ⟨0x00000005#32, 0xFFFF00DF#32, fun w => .mrDecp (uField w) (nxField w)⟩,
    ⟨0x00000006#32, 0xFFFF00DF#32, fun w => .mrRec (uField w) (nxField w)⟩,
    ⟨0x00000007#32, 0xFF0000FF#32, fun w => .addq (nxField w) (nyField w)⟩,
    ⟨0x00000008#32, 0xFF0000FF#32, fun w => .addqc (nxField w) (nyField w)⟩ ]

/-- "A word matches a row when `(w AND mask) = match`" (30_encoding.md R94). -/
def Row.accepts (r : Row) (w : Word) : Bool := w &&& r.mask == r.pattern

/-- Why a word is illegal (30_encoding.md R96, R97). The machine reports `E_ILLEGAL` for every one of them; the names
are for the reader (log entry 8). -/
inductive Reject where
  /-- `OP` is 0x09 to 0x1F (R96). -/
  | reservedOp
  /-- `RSV0` is nonzero (R97). -/
  | reservedLow
  /-- `RSV1` is nonzero (R97). -/
  | reservedHigh
  /-- `U` is set for an opcode that fixes it (R97). -/
  | fixedU
  /-- `NX` is nonzero for `NOP` or `MODINV` (R97). -/
  | fixedNX
  /-- `NY` is nonzero for an opcode other than `ADDQ` and `ADDQC` (R97). -/
  | fixedNY
deriving DecidableEq, Repr

/-- The name under which a word that matches no row is rejected: the first reason that holds (30_encoding.md R96,
R97; the order is the model's, log entry 8). -/
def rejectReason (w : Word) : Reject :=
  if 8 < (opField w).toNat then .reservedOp
  else if rsv0Field w ≠ 0 then .reservedLow
  else if rsv1Field w ≠ 0 then .reservedHigh
  else if uField w && !((opField w).toNat == 4 || (opField w).toNat == 5 || (opField w).toNat == 6) then .fixedU
  else if (opField w).toNat < 2 && nxField w != 0 then .fixedNX
  else .fixedNY

/-- `decode(w)`: the row that `w` matches, with its operands, or illegal by name. Total on all 2^32 words
(30_encoding.md R95). -/
def decode (w : Word) : Except Reject Instr :=
  match opcodeTable.find? (fun r => r.accepts w) with
  | some r => .ok (r.build w)
  | none => .error (rejectReason w)

/-- The instruction the decoder reads from the table's word `w` of `nbits` bits, every bit above `nbits` being 0. A
command has 32 bits (30_encoding.md R91), so a wider number is no command word. -/
def decodeTableWord (nbits w : Nat) : Option Instr :=
  if w % 2 ^ nbits < 2 ^ 32 then
    match decode (BitVec.ofNat 32 (w % 2 ^ nbits)) with
    | .ok i => some i
    | .error _ => none
  else none

/-- `enc(OP, U, NX, NY) = OP | (U << 5) | (NX << 8) | (NY << 16)` (30_encoding.md R99). -/
def enc (op : BitVec 5) (u : Bool) (nx ny : BitVec 8) : Word :=
  op.setWidth 32 ||| ((BitVec.ofBool u).setWidth 32 <<< 5) ||| (nx.setWidth 32 <<< 8) ||| (ny.setWidth 32 <<< 16)

/-- The word of a well-formed command (30_encoding.md R99). -/
def encode (i : Instr) : Word :=
  match i with
  | .nop => enc 0 false 0 0
  | .modinv => enc 1 false 0 0
  | .crtEnc k => enc 2 false (BitVec.ofNat 8 k) 0
  | .crtDec k => enc 3 false (BitVec.ofNat 8 k) 0
  | .mrDec u k => enc 4 u (BitVec.ofNat 8 k) 0
  | .mrDecp u k => enc 5 u (BitVec.ofNat 8 k) 0
  | .mrRec u n => enc 6 u (BitVec.ofNat 8 n) 0
  | .addq nx ny => enc 7 false (BitVec.ofNat 8 nx) (BitVec.ofNat 8 ny)
  | .addqc nx ny => enc 8 false (BitVec.ofNat 8 nx) (BitVec.ofNat 8 ny)

end Sys2Proof
end

