-- ==== Sys2Proof/Machine/Operands.lean ====
section
/-! DEFINITION. The operands of the commands and the checks made on them, in the order of 40_command.md R125: lengths,
then moduli, then digits, each check ascending and the first failure reported. -/

namespace Sys2Proof.Machine

/-- The length check of every command with a variable length (40_command.md R124). -/
def checkLengths (nx ny : Nat) : Except Raise Unit :=
  if Config.nDig < nx ∨ Config.nDig < ny then .error ⟨.length, 0, false⟩ else .ok ()

/-- No modulus of the sequence is 0; the lowest zero position fails (42_mixed_radix.md R170, 44_crt.md R220). -/
def checkModuli (ms : List Nat) : Except Raise Unit :=
  match ms.findIdx? (fun m => m == 0) with
  | some i => .error ⟨.modulus, i, false⟩
  | none => .ok ()

/-- Every digit is below the modulus of its position; the lowest position at fault fails, in buffer `Y` if `inY`
(42_mixed_radix.md R178, 43_base_q_adder.md R200, 44_crt.md R226). -/
def checkDigits (ds ms : List Nat) (inY : Bool) : Except Raise Unit :=
  match (ds.zip ms).findIdx? (fun p => decide (p.2 ≤ p.1)) with
  | some i => .error ⟨.digit, i, inY⟩
  | none => .ok ()

/-- `QBASE` is not 0, checked whenever a command uses it, even with length 0 (42_mixed_radix.md R170,
43_base_q_adder.md R200). -/
def checkBase (q : Nat) : Except Raise Unit :=
  if q = 0 then .error ⟨.modulus, 0, false⟩ else .ok ()

/-- The moduli of a mixed-radix command before any check: `k` copies of `QBASE`, or `MOD[0..k-1]` (30_encoding.md R93). -/
def modulusSequence (s : State) (u : Bool) (k : Nat) : List Nat :=
  if u then List.replicate k s.qbase.toNat else digits s.mod k

/-- `MSEQ(U, k)`: the modulus sequence, checked (42_mixed_radix.md R170). -/
def mseq (s : State) (u : Bool) (k : Nat) : Except Raise (List Nat) :=
  if u then (checkBase s.qbase.toNat).map fun _ => modulusSequence s u k
  else (checkModuli (modulusSequence s u k)).map fun _ => modulusSequence s u k

end Sys2Proof.Machine
end

