-- ==== Sys2Proof/Machine/Adder.lean ====
section
/-! DEFINITION. The base-q carry adder: `CARRYADD` (43_base_q_adder.md R202), `ADDQ` (R200, R201) and `ADDQC` (R205, R206). -/

namespace Sys2Proof.Machine

/-- One position of the adder: the digit left and the carry out of a sum `t ≤ 2q − 1` (43_base_q_adder.md R202). -/
def carryDigit (q t : Nat) : Nat × Bool := if q ≤ t then (t - q, true) else (t, false)

/-- The carry alone through the remaining positions, until it resolves or they run out (43_base_q_adder.md R202). -/
def ripple (q : Nat) : Bool → List Nat → List Nat × Bool
  | false, ts => (ts, false)
  | true, [] => ([], true)
  | true, t :: ts =>
    let (d, c) := carryDigit q (t + 1)
    let (ds, c') := ripple q c ts
    (d :: ds, c')

/-- `CARRYADD(T, S, q)` from a carry in, `S` no longer than `T`: the digits of `T` after it and the final carry
(43_base_q_adder.md R202). -/
def carryAdd (q : Nat) : Bool → List Nat → List Nat → List Nat × Bool
  | c, ts, [] => ripple q c ts
  | c, [], _ :: _ => ([], c)
  | c, t :: ts, u :: us =>
    let (d, c₁) := carryDigit q (t + u + c.toNat)
    let (ds, c₂) := carryAdd q c₁ ts us
    (d :: ds, c₂)

/-- `ADDQ`'s further length condition, "ys no longer than xs" (43_base_q_adder.md R200). -/
def checkOrder (nx ny : Nat) : Except Raise Unit :=
  if nx < ny then .error ⟨.length, 0, false⟩ else .ok ()

/-- The checks on the base and on both digit vectors, `X` before `Y` (43_base_q_adder.md R200, R205). -/
def checkAddends (s : State) (nx ny : Nat) : Except Raise Unit := do
  checkBase s.qbase.toNat
  checkDigits (digits s.x nx) (List.replicate nx s.qbase.toNat) false
  checkDigits (digits s.y ny) (List.replicate ny s.qbase.toNat) true

/-- The body of `ADDQ` up to the digits and the final carry (43_base_q_adder.md R201). -/
def addqPlan (s : State) (nx ny : Nat) : Except Raise (List Nat × Bool) := do
  checkLengths nx ny
  checkOrder nx ny
  checkAddends s nx ny
  .ok (carryAdd s.qbase.toNat false (digits s.x nx) (digits s.y ny))

/-- The body of `ADDQC` up to the digits and the final carry: the longer operand is the one added into
(43_base_q_adder.md R206). -/
def addqcPlan (s : State) (nx ny : Nat) : Except Raise (List Nat × Bool) := do
  checkLengths nx ny
  checkAddends s nx ny
  if nx < ny then .ok (carryAdd s.qbase.toNat false (digits s.y ny) (digits s.x nx))
  else .ok (carryAdd s.qbase.toNat false (digits s.x nx) (digits s.y ny))

/-- The digits go to `X[0..n-1]` and `RLEN = n`, with or without a carry out, which is then reported
(43_base_q_adder.md R201, R203). -/
def storeSum (s : State) (n : Nat) (sum : List Nat × Bool) : State :=
  if sum.2 then { s with x := writeDigits s.x sum.1 }.carryOut n
  else { s with x := writeDigits s.x sum.1 }.succeed n

/-- `ADDQ`: `X <- X + Y` in base `QBASE`, in place (43_base_q_adder.md R201). -/
def execAddq (nx ny : Nat) (s : State) : Host.Outcome State Fault Refusal :=
  .next (s.conclude (addqPlan s nx ny) fun s r => storeSum s nx r)

/-- `ADDQC`: the sum of the two vectors in any length order, left in `X` (43_base_q_adder.md R206). -/
def execAddqc (nx ny : Nat) (s : State) : Host.Outcome State Fault Refusal :=
  .next (s.conclude (addqcPlan s nx ny) fun s r => storeSum s (max nx ny) r)

end Sys2Proof.Machine
end

