-- ==== Sys2Proof/Machine/Inverse.lean ====
section
/-! DEFINITION. The modular inverse by extended Euclid: the procedure `INV` (41_modular_inverse.md R150), which `MODINV` and
`CRT.DEC` share, and `MODINV` itself (R151). -/

namespace Sys2Proof.Machine

/-- The loop of `INV` and its exit at `s = 0`: the coefficient `x1` when `s` reaches 1, none where the procedure fails
with `E_NOINV` (41_modular_inverse.md R150). The first argument bounds the iterations; `inv` gives more than the loop
can take (R155; log entry 9). -/
def invLoop : Nat → Nat → Nat → Int → Int → Option Int
  | 0, _, _, _, _ => none
  | fuel + 1, s, t, x0, x1 =>
    if 1 < s then
      if t = 0 then none
      else invLoop fuel t (s % t) (x1 - (s / t : Nat) * x0) x0
    else if s = 0 then none
    else some x1

/-- `INV(a, m)`: `m = 0` and `m = 1` first, then the loop, then a negative coefficient is "normalized by adding `m`"
(41_modular_inverse.md R150, 90_conflicts.md C1). -/
def inv (a m : Nat) : Except ErrCode Nat :=
  if m = 0 then .error .modulus
  else if m = 1 then .ok 0
  else
    match invLoop (a + m + 1) a m 0 1 with
    | none => .error .noInv
    | some x1 => .ok (if x1 < 0 then x1 + m else x1).toNat

/-- The body of `MODINV` up to its result (41_modular_inverse.md R151). -/
def modinvPlan (s : State) : Except Raise Nat :=
  match inv s.opa.toNat s.opm.toNat with
  | .ok r => .ok r
  | .error e => .error ⟨e, 0, false⟩

/-- `MODINV`: `VAL <- INV(OPA, OPM)`, or `E_MODULUS` or `E_NOINV` (41_modular_inverse.md R151). -/
def execModinv (s : State) : Host.Outcome State Fault Refusal :=
  .next (s.conclude (modinvPlan s) fun s r => { s with val := BitVec.ofNat 128 r }.succeed 0)

end Sys2Proof.Machine
end

