-- ==== Sys2Proof/Machine/Crt.lean ====
section
/-! DEFINITION. The CRT codec: `CRT.ENC` (44_crt.md R221) and `CRT.DEC` (R223 to R226). -/

namespace Sys2Proof.Machine

/-- The CRT modulus `M = Π MOD[i]`, exact, an empty product being 1 (44_crt.md R223). -/
def product : List Nat → Nat
  | [] => 1
  | m :: ms => m * product ms

/-- The body of `CRT.ENC` up to the residues (44_crt.md R221). -/
def crtEncPlan (s : State) (k : Nat) : Except Raise (List Nat) := do
  checkLengths k 0
  checkModuli (digits s.mod k)
  .ok ((digits s.mod k).map fun p => s.val.toNat % p)

/-- `inv_i = INV(M div MOD[i], MOD[i])` for each position, the first of them being position `i`. The lowest position
without an inverse fails with `E_NOINV` (44_crt.md R224). -/
def crtInverses (M : Nat) : Nat → List Nat → Except Raise (List Nat)
  | _, [] => .ok []
  | i, p :: ps =>
    match inv (M / p) p with
    | .error _ => .error ⟨.noInv, i, false⟩
    | .ok w => (crtInverses M (i + 1) ps).map (w :: ·)

/-- The accumulation `acc <- (acc + X[i] · w[i] · q[i]) mod M` from position 0 upward (44_crt.md R225). -/
def crtSum (M : Nat) : Nat → List Nat → List Nat → List Nat → Nat
  | acc, r :: rs, w :: ws, p :: ps => crtSum M ((acc + r * w * (M / p)) % M) rs ws ps
  | acc, _, _, _ => acc

/-- `M` fits a value register (44_crt.md R223). -/
def checkProduct (M : Nat) : Except Raise Unit :=
  if 2 ^ 128 ≤ M then .error ⟨.overflow, 0, false⟩ else .ok ()

/-- The body of `CRT.DEC` up to its result (44_crt.md R226). -/
def crtDecPlan (s : State) (k : Nat) : Except Raise Nat := do
  checkLengths k 0
  checkModuli (digits s.mod k)
  checkDigits (digits s.x k) (digits s.mod k) false
  checkProduct (product (digits s.mod k))
  let w ← crtInverses (product (digits s.mod k)) 0 (digits s.mod k)
  .ok (crtSum (product (digits s.mod k)) 0 (digits s.x k) w (digits s.mod k))

/-- `CRT.ENC`: `X[i] <- VAL mod MOD[i]` for `i < k` (44_crt.md R221). -/
def execCrtEnc (k : Nat) (s : State) : Host.Outcome State Fault Refusal :=
  .next (s.conclude (crtEncPlan s k) fun s ds => { s with x := writeDigits s.x ds }.succeed k)

/-- `CRT.DEC`: `VAL` from the residues of `X` (44_crt.md R226). -/
def execCrtDec (k : Nat) (s : State) : Host.Outcome State Fault Refusal :=
  .next (s.conclude (crtDecPlan s k) fun s acc => { s with val := BitVec.ofNat 128 acc }.succeed 0)

end Sys2Proof.Machine
end

