-- ==== Sys2Proof/Machine/MixedRadix.lean ====
section
/-! DEFINITION. The mixed-radix codec: `DECOMP` and `HORNER` (42_mixed_radix.md R172, R177), `MR.DEC`, `MR.DECP` and
`MR.REC` (R171, R175, R178). -/

namespace Sys2Proof.Machine

/-- `DECOMP(x, m)`: the digits of natural length, or none for `overflow` (42_mixed_radix.md R172). Where the moduli run
out the loop has not stopped early, so anything but 0 left over overflows. -/
def decomp : Nat → List Nat → Option (List Nat)
  | x, [] => if x = 0 then some [] else none
  | x, m :: ms =>
    if m ≤ x then (decomp ((x - x % m) / m) ms).map (x % m :: ·)
    else some [x]

/-- `HORNER(d, m)`: from the most significant digit to the least, `acc <- acc · m[i] + d[i]` (42_mixed_radix.md R177). -/
def horner : List Nat → List Nat → Nat
  | d :: ds, m :: ms => horner ds ms * m + d
  | _, _ => 0

/-- The body of `MR.DEC` and `MR.DECP` up to the digits (42_mixed_radix.md R171, R175). -/
def decompPlan (s : State) (u : Bool) (k : Nat) : Except Raise (List Nat) := do
  checkLengths k 0
  let m ← mseq s u k
  match decomp s.val.toNat m with
  | some d => .ok d
  | none => .error ⟨.overflow, 0, false⟩

/-- `X[i] <- (i < len(d)) ? d[i] : 0` for every `i < k` (42_mixed_radix.md R171). -/
def storePadded (s : State) (k : Nat) (d : List Nat) : State :=
  { s with x := writeDigits s.x (d ++ List.replicate (k - d.length) 0) }

/-- The body of `MR.REC` up to its result (42_mixed_radix.md R178). -/
def recPlan (s : State) (u : Bool) (n : Nat) : Except Raise Nat := do
  checkLengths n 0
  let m ← mseq s u n
  checkDigits (digits s.x n) m false
  if 2 ^ 128 ≤ horner (digits s.x n) m then .error ⟨.overflow, 0, false⟩
  else .ok (horner (digits s.x n) m)

/-- `MR.DEC`: the digits of `VAL`, with `RLEN` the natural length (42_mixed_radix.md R171). -/
def execMrDec (u : Bool) (k : Nat) (s : State) : Host.Outcome State Fault Refusal :=
  .next (s.conclude (decompPlan s u k) fun s d => (storePadded s k d).succeed d.length)

/-- `MR.DECP`: the same digits, with `RLEN = k` (42_mixed_radix.md R175). -/
def execMrDecp (u : Bool) (k : Nat) (s : State) : Host.Outcome State Fault Refusal :=
  .next (s.conclude (decompPlan s u k) fun s d => (storePadded s k d).succeed k)

/-- `MR.REC`: `VAL` from the digits of `X` (42_mixed_radix.md R178). -/
def execMrRec (u : Bool) (n : Nat) (s : State) : Host.Outcome State Fault Refusal :=
  .next (s.conclude (recPlan s u n) fun s acc => { s with val := BitVec.ofNat 128 acc }.succeed 0)

end Sys2Proof.Machine
end

