-- ==== Sys2Proof/Machine/Nop.lean ====
section
/-! DEFINITION. `NOP` (40_command.md R130). -/

namespace Sys2Proof.Machine

/-- `NOP`: the completion reports success and touches no data register (40_command.md R130). -/
def execNop (s : State) : Host.Outcome State Fault Refusal := .next (s.succeed 0)

end Sys2Proof.Machine
end

