-- ==== Sys2Proof/Machine/Dispatch.lean ====
section
/-! DEFINITION. The completion step of each command: one arm per row of the opcode map (30_encoding.md R94, 40_command.md
R121). -/

namespace Sys2Proof.Machine

def exec (i : Instr) (s : State) : Host.Outcome State Fault Refusal :=
  match i with
  | .nop => Sys2Proof.Machine.execNop s
  | .modinv => Sys2Proof.Machine.execModinv s
  | .crtEnc k => Sys2Proof.Machine.execCrtEnc k s
  | .crtDec k => Sys2Proof.Machine.execCrtDec k s
  | .mrDec u k => Sys2Proof.Machine.execMrDec u k s
  | .mrDecp u k => Sys2Proof.Machine.execMrDecp u k s
  | .mrRec u n => Sys2Proof.Machine.execMrRec u n s
  | .addq nx ny => Sys2Proof.Machine.execAddq nx ny s
  | .addqc nx ny => Sys2Proof.Machine.execAddqc nx ny s

end Sys2Proof.Machine
end

