-- ==== Sys2Proof/Machine/Engine.lean ====
section
/-! DEFINITION. The turns of the machine: the engine's completion step (40_command.md R121), a host access, a reset
(20_memory.md R72, 70_reset_and_hazards.md R273). -/

namespace Sys2Proof.Machine

/-- The completion step: the latched word is decoded and its command completed, or the word is illegal and completes with
`E_ILLEGAL` (40_command.md R121, R123). -/
def State.completion (s : State) : Host.Outcome State Fault Refusal :=
  match decode s.cmd with
  | .ok i => exec i s
  | .error _ => .next s.illegalCommand

/-- The engine's turn: its completion step, enabled only while `BUSY = 1` (40_command.md R121). Otherwise nothing
happens. -/
def State.engineTurn (s : State) : Host.Outcome State Fault Refusal :=
  if s.busy then s.completion else .next s

/-- One turn of the total order (20_memory.md R72). -/
def State.takeTurn (s : State) (t : Turn) : Host.Outcome State Fault Refusal :=
  match t with
  | .host a => .next (s.hostAccess a)
  | .engine => s.engineTurn
  | .reset => .next s.hardReset

end Sys2Proof.Machine
end

