-- ==== Sys2Proof/Machine/Step.lean ====
section
/-! DEFINITION. One atomic step: the next turn of the agenda; with none left, the engine moves, so an enabled completion
is taken (weak fairness, 40_command.md R122; log entry 1). -/

namespace Sys2Proof.Machine

/-- One step of the block (20_memory.md R72). -/
def step (s : State) : Host.Outcome State Fault Refusal :=
  match s.agenda with
  | [] => s.engineTurn
  | t :: rest => { s with agenda := rest }.takeTurn t

/-- `s` with the command word `w` issued and the completion step next: the block fetches nothing (10_state.md R24), its
next instruction is the word latched in `CMD` with `BUSY = 1` (R43). Turns still to come stay behind the engine's
(log entry 2). -/
def State.withFetchWord (s : State) (nbits w : Nat) : State :=
  { s.issue (BitVec.ofNat 32 (w % 2 ^ nbits)) with
    agenda := match s.agenda with
      | [] => []
      | t :: rest => .engine :: t :: rest }

end Sys2Proof.Machine
end

