-- ==== Sys2Proof/Safety.lean ====
section
/-! DEFINITION. The terms the claims use: the value of a digit vector (00_scope.md R11), the legal forms of the status
report, which registers a command reads and writes (10_state.md R42), and the host's soft reset. -/

namespace Sys2Proof.Machine

/-! ### Digit vectors -/

/-- `Σ d[i] · w · Π_{j<i} m[j]`, the terms from position 0 upward (00_scope.md R11). -/
def digitValueFrom (w : Nat) : List Nat → List Nat → Nat
  | d :: ds, m :: ms => d * w + digitValueFrom (w * m) ds ms
  | _, _ => 0

/-- `val(d, m) = Σ d[i] · Π_{j<i} m[j]` (00_scope.md R11). -/
def digitValue (ds ms : List Nat) : Nat := digitValueFrom 1 ds ms

/-- A digit vector is well-formed under its moduli: every `d[i] < m[i]` (00_scope.md R11). -/
abbrev DigitsBelow (ds ms : List Nat) : Prop := ∀ p ∈ ds.zip ms, p.1 < p.2

/-- The moduli in use are not 0: `QBASE` where `U = 1`, whatever the length; `MOD[0..k-1]` where `U = 0`
(42_mixed_radix.md R170). -/
abbrev ModuliNonzero (s : State) (u : Bool) (k : Nat) : Prop :=
  if u then s.qbase.toNat ≠ 0 else ∀ m ∈ digits s.mod k, m ≠ 0

/-! ### Euclid's loop -/

/-- What the loop of `INV` carries: the working pair and the two coefficients (41_modular_inverse.md R150). -/
structure EuclidPoint where
  s : Nat
  t : Nat
  x0 : Int
  x1 : Int
deriving DecidableEq, Repr

/-- The loop's point after `n` iterations from `INV`'s start, each iteration taken whatever the loop's condition says
(41_modular_inverse.md R150). -/
def euclidAt (a m : Nat) : Nat → EuclidPoint
  | 0 => ⟨a, m, 0, 1⟩
  | n + 1 =>
    let p := euclidAt a m n
    ⟨p.t, p.s % p.t, p.x1 - (p.s / p.t : Nat) * p.x0, p.x0⟩

/-! ### The status report -/

/-- The report fields hold only what a completion or an issue can leave: a raised code (60_exceptions.md R240, R241), a
position only with a code that names one (R243), `ERRY` only with `E_DIGIT` (10_state.md R34), a length only with
success or `E_CARRY` (10_state.md R32), each within its range. -/
abbrev State.ReportLegal (s : State) : Prop :=
  s.errcode.toNat < 8 ∧ s.erridx.toNat < 128 ∧ s.rlen.toNat ≤ 128 ∧
  (s.erridx ≠ 0 → s.errcode = 3 ∨ s.errcode = 4 ∨ s.errcode = 5) ∧
  (s.erry = true → s.errcode = 4) ∧
  (s.rlen ≠ 0 → s.errcode = 0 ∨ s.errcode = 7)

/-- While a command is in flight the report is the cleared one its issue left (40_command.md R120). -/
abbrev State.IssueCleared (s : State) : Prop :=
  s.busy = true → s.done = false ∧ s.errcode = 0 ∧ s.erridx = 0 ∧ s.erry = false ∧ s.rlen = 0

/-- The invariant of the block: a legal report, cleared while a command is in flight. -/
abbrev State.Inv (s : State) : Prop := s.ReportLegal ∧ s.IssueCleared

/-! ### What a command reads and writes -/

/-- Two buffers agree on the entries `[0, n)`. -/
abbrev agreeBelow (n : Nat) (b b' : Buffer) : Prop := ∀ i (h : i < 128), i < n → b[i] = b'[i]

/-- Two buffers agree on the entries from `n` on. -/
abbrev agreeFrom (n : Nat) (b b' : Buffer) : Prop := ∀ i (h : i < 128), n ≤ i → b[i] = b'[i]

/-- `s` and `s'` agree on every register and entry the command reads (10_state.md R42, column R). -/
def agreeOnReads (i : Instr) (s s' : State) : Prop :=
  match i with
  | .nop => True
  | .modinv => s.opa = s'.opa ∧ s.opm = s'.opm
  | .crtEnc k => s.val = s'.val ∧ agreeBelow k s.mod s'.mod
  | .crtDec k => agreeBelow k s.mod s'.mod ∧ agreeBelow k s.x s'.x
  | .mrDec u k => s.val = s'.val ∧ if u then s.qbase = s'.qbase else agreeBelow k s.mod s'.mod
  | .mrDecp u k => s.val = s'.val ∧ if u then s.qbase = s'.qbase else agreeBelow k s.mod s'.mod
  | .mrRec u n => agreeBelow n s.x s'.x ∧ if u then s.qbase = s'.qbase else agreeBelow n s.mod s'.mod
  | .addq nx ny => s.qbase = s'.qbase ∧ agreeBelow nx s.x s'.x ∧ agreeBelow ny s.y s'.y
  | .addqc nx ny => s.qbase = s'.qbase ∧ agreeBelow nx s.x s'.x ∧ agreeBelow ny s.y s'.y

/-- The entries of `X` a command may write are those below this bound (10_state.md R42, column X). -/
def xWriteBound (i : Instr) : Nat :=
  match i with
  | .nop => 0
  | .modinv => 0
  | .crtEnc k => k
  | .crtDec _ => 0
  | .mrDec _ k => k
  | .mrDecp _ k => k
  | .mrRec _ _ => 0
  | .addq nx _ => nx
  | .addqc nx ny => max nx ny

/-- The commands whose result goes to `VAL` (10_state.md R42, column VAL). -/
def writesVal (i : Instr) : Bool :=
  match i with
  | .modinv | .crtDec _ | .mrRec _ _ => true
  | .nop | .crtEnc _ | .mrDec _ _ | .mrDecp _ _ | .addq _ _ | .addqc _ _ => false

/-- `t` and `t'` hold the same status report of a completion (10_state.md R26, less `COLL`). -/
abbrev sameReport (t t' : State) : Prop :=
  t.busy = t'.busy ∧ t.done = t'.done ∧ t.errcode = t'.errcode ∧ t.erridx = t'.erridx ∧ t.erry = t'.erry ∧
  t.rlen = t'.rlen

/-- `t` and `t'` hold the same command word and the same data registers. -/
abbrev sameData (t t' : State) : Prop :=
  t.cmd = t'.cmd ∧ t.qbase = t'.qbase ∧ t.val = t'.val ∧ t.opa = t'.opa ∧ t.opm = t'.opm ∧ t.mod = t'.mod ∧
  t.x = t'.x ∧ t.y = t'.y

/-! ### The host -/

/-- The one access that abandons an in-flight command: a served write to `CTRL` with bit 1 set
(70_reset_and_hazards.md R272). -/
def Access.isSoftReset (a : Access) : Bool :=
  match a with
  | .read _ _ => false
  | .write size off v => size == .word && off == 0x008 && v.getLsbD 1

/-- A turn that abandons an in-flight command without completing it: a reset or a soft reset
(70_reset_and_hazards.md R271, R272). -/
def Turn.abandons (turn : Turn) : Bool :=
  match turn with
  | .host a => a.isSoftReset
  | .engine => false
  | .reset => true

end Sys2Proof.Machine
end

