-- ==== Sys2Proof/Certificates/Slice0/Obligations.lean ====
section
/-! DEFINITION. The statements for the provers, from the numbered rules of spec/. Each docstring names the rule and what
the Lean adds or leaves out. The fields `agenda`, `draws` and `reply` are the model's own (log entries 1, 3, 4): where a
statement writes `reply := t.reply` it says nothing about that field. Where a statement about `exec` gives the report of a
success, its fields are written explicitly from every state (log entry 5, DEDUCED); in a state an issue leaves, that is
what the spec's "left from issue" says. -/

open Sys2Proof Sys2Proof.Machine

/-! ## Encoding -/

/-- 30_encoding.md R100: its eleven words are the encodings of its commands and decode to them; its nine illegal words
match no row. -/
def Obligations.SpecEncodingsDecode : Prop :=
  (∀ p ∈ ([(.nop, 0x00000000#32), (.modinv, 0x00000001#32), (.crtEnc 3, 0x00000302#32), (.crtDec 3, 0x00000303#32),
      (.mrDec false 4, 0x00000404#32), (.mrDec true 128, 0x00008024#32), (.mrDecp true 128, 0x00008025#32),
      (.mrRec false 3, 0x00000306#32), (.mrRec true 2, 0x00000226#32), (.addq 2 1, 0x00010207#32),
      (.addqc 1 1, 0x00010108#32)] : List (Instr × Word)),
    encode p.1 = p.2 ∧ decode p.2 = .ok p.1) ∧
  (∀ w ∈ [0x00000020#32, 0x00000021#32, 0x00000100#32, 0x01000001#32, 0x00000009#32, 0x0000001F#32, 0x00000022#32,
      0x00010002#32, 0x000000C0#32], ∃ r, decode w = .error r)

/-- 30_encoding.md R94, R99: decoding the encoding of any well-formed command gives that command back. -/
def Obligations.DecodeOfEncode : Prop :=
  ∀ i : Instr, i.wellFormed = true → decode (encode i) = .ok i

/-- 30_encoding.md R94, R99: a word that decodes is the encoding of the command it decodes to, and that command is well
formed. No bit of a legal word is dropped. -/
def Obligations.EncodeOfDecode : Prop :=
  ∀ (w : Word) (i : Instr), decode w = .ok i → encode i = w ∧ i.wellFormed = true

/-- 30_encoding.md R94, R95: a word decodes exactly when it matches a row of the opcode map, here written out as
(mask, match), and no word matches two of them. -/
def Obligations.DecodeFindsTheUniqueRow : Prop :=
  ∀ w : Word,
    let rows : List (Word × Word) :=
      [(0xFFFFFFFF#32, 0#32), (0xFFFFFFFF#32, 1#32), (0xFFFF00FF#32, 2#32), (0xFFFF00FF#32, 3#32), (0xFFFF00DF#32, 4#32),
       (0xFFFF00DF#32, 5#32), (0xFFFF00DF#32, 6#32), (0xFF0000FF#32, 7#32), (0xFF0000FF#32, 8#32)]
    ((∃ i, decode w = .ok i) ↔ ∃ r ∈ rows, w &&& r.1 = r.2) ∧
    (∀ r ∈ rows, ∀ r' ∈ rows, w &&& r.1 = r.2 → w &&& r'.1 = r'.2 → r = r')

/-- 30_encoding.md R96, R97: a word is illegal exactly when its `OP` is 0x09 to 0x1F or it has a nonzero value in a field
its row fixes (`RSV0`, `RSV1`, `U`, `NX` or `NY`); 0 is the only word of `NOP`. Fields are read by division. -/
def Obligations.IllegalExactlyByFields : Prop :=
  (∀ w : Word,
    let op := w.toNat % 32
    let u := w.toNat / 32 % 2
    let rsv0 := w.toNat / 64 % 4
    let nx := w.toNat / 256 % 256
    let ny := w.toNat / 65536 % 256
    let rsv1 := w.toNat / 16777216
    (∃ r, decode w = .error r) ↔
      9 ≤ op ∨ rsv0 ≠ 0 ∨ rsv1 ≠ 0 ∨ (u ≠ 0 ∧ op ≠ 4 ∧ op ≠ 5 ∧ op ≠ 6) ∨ (nx ≠ 0 ∧ (op = 0 ∨ op = 1)) ∨
        (ny ≠ 0 ∧ op ≠ 7 ∧ op ≠ 8)) ∧
  (∀ w : Word, decode w = .ok .nop ↔ w = 0)

/-! ## The step -/

/-- A STEP RUNS THE DECODED COMMAND (40_command.md R121): with a command in flight and the engine to move, step is exec of
the command `CMD` decodes to, at that state less the turn taken; with no turn left it is exec at that very state. With
none in flight the engine's turn changes nothing, and a host turn is that access. That the turns are data, and the engine's
comes when none is left, is the model's choice (log entry 1, DESIGN CHOICE). -/
def Obligations.EngineStepRunsDecodedCommand : Prop :=
  (∀ (s : State) (rest : List Turn) (i : Instr), s.busy = true → i.wellFormed = true → decode s.cmd = .ok i →
    step { s with agenda := .engine :: rest } = exec i { s with agenda := rest } ∧
    step { s with agenda := [] } = exec i { s with agenda := [] }) ∧
  (∀ (s : State) (rest : List Turn), s.busy = false →
    step { s with agenda := .engine :: rest } = .next { s with agenda := rest } ∧
    step { s with agenda := [] } = .next { s with agenda := [] }) ∧
  (∀ (s : State) (rest : List Turn) (a : Access),
    step { s with agenda := .host a :: rest } = .next ({ s with agenda := rest }.hostAccess a))

/-- 93_implementation_defined.md section 1: "Every issued command completes (U18), and every access returns (U15, U16)."
Every step of every state answers a next state. -/
def Obligations.EveryStepAnswersNext : Prop :=
  ∀ s : State, ∃ t, step s = .next t

/-- 40_command.md R121: the completion step ends with `BUSY = 0` and `DONE = 1`, whatever the word in `CMD`, and leaves
`COLL` and `CTRL.IE` as they were (10_state.md R30). -/
def Obligations.EveryCommandCompletes : Prop :=
  ∀ (s : State) (rest : List Turn), s.busy = true →
    ∃ t, step { s with agenda := .engine :: rest } = .next t ∧ t.busy = false ∧ t.done = true ∧ t.coll = s.coll ∧
      t.ie = s.ie ∧ t.cmd = s.cmd

/-- 40_command.md R122, weak fairness as the model realises it (log entry 1, DESIGN CHOICE): once the turns to come are
used up, one more step leaves no command in flight; and where no turn to come abandons the command in flight (a reset, a
soft reset), its completion step is taken among these steps, on the command word and the data registers of its start, and
ends with `BUSY = 0` and `DONE = 1`. -/
def Obligations.CompletionIsEventuallyTaken : Prop :=
  (∀ s : State, ∃ t : State, Sys2Proof.core.run (s.agenda.length + 1) s = .next t ∧ t.busy = false ∧ t.agenda = []) ∧
  (∀ s : State, s.busy = true → (∀ turn ∈ s.agenda, turn.abandons = false) →
    ∃ (k : Nat) (u t : State), k ≤ s.agenda.length ∧ Sys2Proof.core.run k s = .next u ∧ u.agenda = s.agenda.drop k ∧
      (u.agenda = [] ∨ u.agenda.head? = some .engine) ∧ u.busy = true ∧ sameData u s ∧
      step u = { u with agenda := u.agenda.tail }.completion ∧ step u = .next t ∧ t.busy = false ∧ t.done = true)

/-- 20_memory.md R66, R76: a step that leaves a command in flight leaves it the same command with the same data registers;
a host access other than a soft reset leaves it in flight. From every state, for every turn. -/
def Obligations.StepKeepsInFlightCommand : Prop :=
  (∀ s t : State, s.busy = true → step s = .next t → t.busy = true → sameData t s) ∧
  (∀ (s t : State) (a : Access) (rest : List Turn), s.busy = true → s.agenda = .host a :: rest → a.isSoftReset = false →
    step s = .next t → t.busy = true ∧ sameData t s)

/-- Every step keeps the invariant: a legal status report (10_state.md R31 to R34, 60_exceptions.md R241, R243), cleared
while a command is in flight (40_command.md R120). From every state that meets it, not only runs from reset. -/
def Obligations.StepKeepsLegalReport : Prop :=
  ∀ s t : State, s.Inv → step s = .next t → t.Inv

/-- The reset state meets the invariant. -/
def Obligations.ResetHasLegalReport : Prop := State.reset.Inv

/-- 40_command.md R123: an illegal command word completes with `E_ILLEGAL(0, 0)` (code 1); no data register is written. -/
def Obligations.IllegalWordCompletesWithError : Prop :=
  ∀ (s : State) (rest : List Turn) (r : Reject), s.busy = true → decode s.cmd = .error r →
    step { s with agenda := .engine :: rest } =
      .next { s with busy := false, done := true, errcode := 1, erridx := 0, erry := false, rlen := 0, agenda := rest }

/-- 60_exceptions.md R241: codes 8 to 15 are never raised: no completion reports one, and no step of a state that shows
none makes one. -/
def Obligations.ReservedCodesNeverRaised : Prop :=
  (∀ (i : Instr) (s t : State), exec i s = .next t → t.errcode.toNat < 8) ∧
  (∀ s t : State, s.errcode.toNat < 8 → step s = .next t → t.errcode.toNat < 8)

/-! ## Reset -/

/-- 70_reset_and_hazards.md R270: reset is one step, and after it every piece of state has the value of the rule's table.
It holds of the reset state and of what a reset turn makes of any state. -/
def Obligations.ResetSetsEveryRegister : Prop :=
  (∀ (s : State) (rest : List Turn), ∃ t, step { s with agenda := .reset :: rest } = .next t) ∧
  (∀ t : State, (t = State.reset ∨ ∃ (s : State) (rest : List Turn), step { s with agenda := .reset :: rest } = .next t) →
    t.peek .id = 0x53570100#32 ∧ t.peek .param = 0x00100480#32 ∧ t.ie = false ∧ (t.peek .ctrl).getLsbD 1 = false ∧
    t.busy = false ∧ t.done = false ∧ t.coll = false ∧ t.errcode = 0 ∧ t.err = false ∧ t.rlen = 0 ∧ t.erridx = 0 ∧
    t.erry = false ∧ t.cmd = 0 ∧ t.qbase = 0 ∧ t.val = 0 ∧ t.opa = 0 ∧ t.opm = 0 ∧
    (∀ i (h : i < 128), t.mod[i] = 0 ∧ t.x[i] = 0 ∧ t.y[i] = 0) ∧ t.irq = false ∧ t.peek .status = 0)

/-- 70_reset_and_hazards.md R272: a write to `CTRL` with bit 1 set is the reset of R270, whatever `BUSY` and bit 0 are, and
never a collision; with bit 1 clear it only sets `CTRL.IE`; no other host access abandons an in-flight command. -/
def Obligations.SoftResetResetsTheBlock : Prop :=
  (∀ (s : State) (rest : List Turn) (v : Word), v.getLsbD 1 = true →
    ∃ t, step { s with agenda := .host (.write .word 0x008 v) :: rest } = .next t ∧
      t = { State.reset with agenda := t.agenda, draws := t.draws, reply := t.reply } ∧ t.ie = false ∧ t.coll = false) ∧
  (∀ (s : State) (rest : List Turn) (v : Word), v.getLsbD 1 = false →
    ∃ t, step { s with agenda := .host (.write .word 0x008 v) :: rest } = .next t ∧
      t = { s with ie := v.getLsbD 0, agenda := rest, reply := t.reply }) ∧
  (∀ (s : State) (rest : List Turn) (a : Access), s.busy = true → a.isSoftReset = false →
    ∃ t, step { s with agenda := .host a :: rest } = .next t ∧ t.busy = true ∧ t.cmd = s.cmd)

/-! ## The register window -/

/-- 40_command.md R120: a write to `CMD` while idle latches the word, sets `BUSY`, clears the report and `DONE` and with it
`IRQ`, and changes nothing else; every word is accepted; while busy it is no issue. -/
def Obligations.IssueLatchesTheCommand : Prop :=
  (∀ (s : State) (rest : List Turn) (w : Word), s.busy = false →
    ∃ t, step { s with agenda := .host (.write .word 0x010 w) :: rest } = .next t ∧
      t = { s with cmd := w, busy := true, done := false, errcode := 0, erridx := 0, erry := false, rlen := 0,
                   agenda := rest, reply := t.reply } ∧ t.irq = false) ∧
  (∀ (s : State) (rest : List Turn) (w : Word), s.busy = true →
    ∃ t, step { s with agenda := .host (.write .word 0x010 w) :: rest } = .next t ∧
      t = { s with coll := true, agenda := rest, reply := t.reply })

/-- 20_memory.md R66: while busy, a write to `CMD`, `QBASE`, a word of `VAL`, `OPA` or `OPM`, or an entry of `MOD`, `X` or
`Y` only sets `COLL`; `CTRL` and `STATUS` writes act normally; writes to `ID`, `PARAM` and reserved offsets do nothing. -/
def Obligations.BusyWritesCollide : Prop :=
  ∀ (s : State) (rest : List Turn) (off : Nat) (v : Word), s.busy = true → off % 4 = 0 → off < 0x1000 →
    ∃ t, step { s with agenda := .host (.write .word off v) :: rest } = .next t ∧
      (off = 0x010 ∨ off = 0x014 ∨ (0x020 ≤ off ∧ off < 0x050) ∨ (0x400 ≤ off ∧ off < 0xA00) →
        t = { s with coll := true, agenda := rest, reply := t.reply }) ∧
      (off = 0x008 ∧ v.getLsbD 1 = false → t = { s with ie := v.getLsbD 0, agenda := rest, reply := t.reply }) ∧
      (off = 0x008 ∧ v.getLsbD 1 = true →
        t = { State.reset with agenda := t.agenda, draws := t.draws, reply := t.reply }) ∧
      (off = 0x00C →
        t = { s with done := s.done && !v.getLsbD 1, coll := s.coll && !v.getLsbD 3, agenda := rest, reply := t.reply }) ∧
      (off = 0x000 ∨ off = 0x004 ∨ (0x018 ≤ off ∧ off < 0x020) ∨ (0x050 ≤ off ∧ off < 0x400) ∨ 0xA00 ≤ off →
        t = { s with agenda := rest, reply := t.reply })

/-- 20_memory.md R67: a read of `ID`, `PARAM`, `CTRL`, `STATUS` or `CMD`, or of a data register while idle, returns its
content; a data-register read while busy returns some word whose reserved bits are 0; no read changes the block. -/
def Obligations.ReadsReturnContent : Prop :=
  ∀ (s : State) (rest : List Turn) (off : Nat), off % 4 = 0 → off < 0x1000 →
    ∃ (t : State) (c : Word), step { s with agenda := .host (.read .word off) :: rest } = .next t ∧
      t = { s with agenda := rest, reply := some (.data c), draws := t.draws } ∧
      (off = 0x000 → c = 0x53570100#32) ∧ (off = 0x004 → c = 0x00100480#32) ∧
      (off = 0x008 → c = (BitVec.ofBool s.ie).setWidth 32) ∧ (off = 0x00C → c = s.statusWord) ∧ (off = 0x010 → c = s.cmd) ∧
      (s.busy = false → off = 0x014 → c = s.qbase.setWidth 32) ∧
      (∀ j < 4, s.busy = false → (off = 0x020 + 4 * j → c = s.val.extractLsb' (32 * j) 32) ∧
        (off = 0x030 + 4 * j → c = s.opa.extractLsb' (32 * j) 32) ∧
        (off = 0x040 + 4 * j → c = s.opm.extractLsb' (32 * j) 32)) ∧
      (∀ i (h : i < 128), s.busy = false → (off = 0x400 + 4 * i → c = s.mod[i].setWidth 32) ∧
        (off = 0x600 + 4 * i → c = s.x[i].setWidth 32) ∧ (off = 0x800 + 4 * i → c = s.y[i].setWidth 32)) ∧
      (off = 0x014 ∨ (0x400 ≤ off ∧ off < 0xA00) → c &&& 0xFFFF0000#32 = 0)

/-- 20_memory.md R64: a reserved offset reads 0 and ignores writes, with no bus error and no `COLL`, busy or not; reserved
bits of a defined register read 0, and a write means the same with its reserved bits cleared. -/
def Obligations.ReservedReadsZeroIgnoresWrites : Prop :=
  (∀ (s : State) (rest : List Turn) (off : Nat) (v : Word), off % 4 = 0 → off < 0x1000 →
    ((0x018 ≤ off ∧ off < 0x020) ∨ (0x050 ≤ off ∧ off < 0x400) ∨ 0xA00 ≤ off) →
    step { s with agenda := .host (.read .word off) :: rest } =
      .next { s with agenda := rest, reply := some (.data 0) } ∧
    step { s with agenda := .host (.write .word off v) :: rest } =
      .next { s with agenda := rest, reply := some .written }) ∧
  (∀ (s t : State) (rest : List Turn) (off : Nat) (c : Word),
    step { s with agenda := .host (.read .word off) :: rest } = .next t → t.reply = some (.data c) →
    (off = 0x004 → c &&& 0xFF000000#32 = 0) ∧ (off = 0x008 → c &&& 0xFFFFFFFC#32 = 0) ∧
    (off = 0x00C → c &&& 0xFE000000#32 = 0) ∧
    (off = 0x014 ∨ (0x400 ≤ off ∧ off < 0xA00) → c &&& 0xFFFF0000#32 = 0)) ∧
  (∀ (s : State) (rest : List Turn) (off : Nat) (v m : Word),
    ((off = 0x004 ∧ m = 0x00FFFFFF#32) ∨ (off = 0x008 ∧ m = 0x00000003#32) ∨ (off = 0x00C ∧ m = 0x01FFFFFF#32) ∨
      ((off = 0x014 ∨ (0x400 ≤ off ∧ off < 0xA00)) ∧ m = 0x0000FFFF#32)) →
    step { s with agenda := .host (.write .word off v) :: rest } =
      step { s with agenda := .host (.write .word off (v &&& m)) :: rest })

/-- 10_state.md R21, R22: idle or busy, `ID` and `PARAM` read their constants, the fields written out, and a write to either
has no effect. -/
def Obligations.ConstantRegistersIgnoreWrites : Prop :=
  (∀ (s : State) (rest : List Turn),
    step { s with agenda := .host (.read .word 0x000) :: rest } =
      .next { s with agenda := rest, reply := some (.data 0x53570100#32) } ∧
    step { s with agenda := .host (.read .word 0x004) :: rest } =
      .next { s with agenda := rest, reply := some (.data 0x00100480#32) }) ∧
  (∀ (s : State) (rest : List Turn) (v : Word),
    step { s with agenda := .host (.write .word 0x000 v) :: rest } =
      .next { s with agenda := rest, reply := some .written } ∧
    step { s with agenda := .host (.write .word 0x004 v) :: rest } =
      .next { s with agenda := rest, reply := some .written }) ∧
  0x53570100#32 = 0x5357#16 ++ 1#8 ++ 0#8 ∧ 0x00100480#32 = 0#8 ++ 16#8 ++ 4#8 ++ 128#8

/-- 20_memory.md R65: a byte or halfword access, or one at an offset not a multiple of 4, is answered with a bus error,
returns no data and changes no state of the block. -/
def Obligations.UnalignedAccessIsBusError : Prop :=
  ∀ (s : State) (rest : List Turn) (size : AccessSize) (off : Nat) (v : Word), size ≠ .word ∨ off % 4 ≠ 0 →
    step { s with agenda := .host (.read size off) :: rest } =
      .next { s with agenda := rest, reply := some (.fault .busError) } ∧
    step { s with agenda := .host (.write size off v) :: rest } =
      .next { s with agenda := rest, reply := some (.fault .busError) }

/-- 20_memory.md R60, R65: the accesses answered with a bus error are exactly those that are not a whole aligned word at an
offset below 0x1000; a served read is answered with data, a served write as written. That an offset of 0x1000 or more, which
is no address of the block, is answered so is the model's choice (log entry 6, DESIGN CHOICE). -/
def Obligations.BusErrorsAreExactlyTheBadAccesses : Prop :=
  ∀ (s : State) (rest : List Turn) (size : AccessSize) (off : Nat) (v : Word),
    (size = .word ∧ off % 4 = 0 ∧ off < 0x1000 →
      (∃ t c, step { s with agenda := .host (.read size off) :: rest } = .next t ∧ t.reply = some (.data c)) ∧
      (∃ t, step { s with agenda := .host (.write size off v) :: rest } = .next t ∧ t.reply = some .written)) ∧
    (¬ (size = .word ∧ off % 4 = 0 ∧ off < 0x1000) →
      (∃ t, step { s with agenda := .host (.read size off) :: rest } = .next t ∧ t.reply = some (.fault .busError)) ∧
      (∃ t, step { s with agenda := .host (.write size off v) :: rest } = .next t ∧ t.reply = some (.fault .busError)))

/-- 10_state.md R26: the fields of the word `STATUS` reads and their reset values, and the write: `DONE` and `COLL` are
cleared by a 1, nothing else changes, never a collision. -/
def Obligations.StatusFieldsAndClears : Prop :=
  (∀ s : State, s.statusWord.getLsbD 0 = s.busy ∧ s.statusWord.getLsbD 1 = s.done ∧
    (s.statusWord.getLsbD 2 = true ↔ s.errcode ≠ 0) ∧ s.statusWord.getLsbD 3 = s.coll ∧
    s.statusWord.extractLsb' 4 4 = s.errcode ∧ s.statusWord.extractLsb' 8 8 = s.rlen ∧
    s.statusWord.extractLsb' 16 8 = s.erridx ∧ s.statusWord.getLsbD 24 = s.erry ∧ s.statusWord.extractLsb' 25 7 = 0) ∧
  State.reset.statusWord = 0 ∧
  (∀ (s : State) (rest : List Turn),
    ∃ t, step { s with agenda := .host (.read .word 0x00C) :: rest } = .next t ∧ t.reply = some (.data s.statusWord)) ∧
  (∀ (s : State) (rest : List Turn) (v : Word),
    ∃ t, step { s with agenda := .host (.write .word 0x00C v) :: rest } = .next t ∧
      t = { s with done := s.done && !v.getLsbD 1, coll := s.coll && !v.getLsbD 3, agenda := rest, reply := t.reply })

/-- 60_exceptions.md R250, R251: `IRQ` after a completion is `CTRL.IE`, whatever the outcome, and `DONE` sets also while
masked; an issue, a write of 1 to `DONE`, a soft reset and a reset lower it; a write to `CTRL` that sets `CTRL.IE` makes it
`DONE`, one that clears `CTRL.IE` lowers it; a read does not change it. -/
def Obligations.InterruptFollowsCompletion : Prop :=
  (∀ (s t : State) (rest : List Turn), s.busy = true → step { s with agenda := .engine :: rest } = .next t →
    t.irq = s.ie ∧ t.done = true) ∧
  (∀ (s t : State) (rest : List Turn) (w : Word), s.busy = false →
    step { s with agenda := .host (.write .word 0x010 w) :: rest } = .next t → t.irq = false) ∧
  (∀ (s t : State) (rest : List Turn) (v : Word), v.getLsbD 1 = true →
    step { s with agenda := .host (.write .word 0x00C v) :: rest } = .next t → t.irq = false) ∧
  (∀ (s t : State) (rest : List Turn) (v : Word), v.getLsbD 1 = true →
    step { s with agenda := .host (.write .word 0x008 v) :: rest } = .next t → t.irq = false) ∧
  (∀ (s t : State) (rest : List Turn), step { s with agenda := .reset :: rest } = .next t → t.irq = false) ∧
  (∀ (s t : State) (rest : List Turn) (v : Word), v.getLsbD 1 = false →
    step { s with agenda := .host (.write .word 0x008 v) :: rest } = .next t →
    (v.getLsbD 0 = true → t.irq = s.done) ∧ (v.getLsbD 0 = false → t.irq = false)) ∧
  (∀ (s t : State) (rest : List Turn) (size : AccessSize) (off : Nat),
    step { s with agenda := .host (.read size off) :: rest } = .next t → t.irq = s.irq)

/-- 20_memory.md R63, R68, R69; 10_state.md R35 to R41: a write to a data register of the idle block leaves the bytes
written (reserved bits 0) at the register's four bus addresses and every other byte of the window as it was. -/
def Obligations.IdleWriteStoresItsWordOnly : Prop :=
  ∀ (s : State) (rest : List Turn) (off : Nat) (v : Word), s.busy = false → off % 4 = 0 →
    (off = 0x014 ∨ (0x020 ≤ off ∧ off < 0x050) ∨ (0x400 ≤ off ∧ off < 0xA00)) →
    ∃ t, step { s with agenda := .host (.write .word off v) :: rest } = .next t ∧
      (∀ j : Fin 4, t.windowByte (Config.base + off + j.val) =
        some ((if 0x020 ≤ off ∧ off < 0x050 then v else v &&& 0x0000FFFF#32).extractLsb' (8 * j.val) 8)) ∧
      (∀ addr : Nat, addr < Config.base + off ∨ Config.base + off + 4 ≤ addr → t.windowByte addr = s.windowByte addr) ∧
      sameReport t s ∧ t.coll = s.coll ∧ t.ie = s.ie ∧ t.cmd = s.cmd

/-- 20_memory.md R76, 70_reset_and_hazards.md R285: whatever the host accesses between issue and completion, a soft reset
excepted, the command leaves the same data registers and the same report as if its completion came at once. -/
def Obligations.InFlightOperandsAreFrozen : Prop :=
  ∀ (s : State) (as : List Access) (rest : List Turn), s.busy = true → (∀ a ∈ as, a.isSoftReset = false) →
    ∃ t u : State, Sys2Proof.core.run (as.length + 1) { s with agenda := as.map Turn.host ++ .engine :: rest } = .next t ∧
      step { s with agenda := .engine :: rest } = .next u ∧ sameData t u ∧ sameReport t u

/-! ## NOP -/

/-- 40_command.md R130: `NOP` reports success and changes no data register; its only word is 0, any other word with
`OP = 0` is illegal; from reset `exec nop` leaves `STATUS = 0x0000_0002` and every other register at its reset
value. -/
def Obligations.NopReportsSuccess : Prop :=
  (∀ s : State, exec .nop s =
    .next { s with busy := false, done := true, errcode := 0, erridx := 0, erry := false, rlen := 0 }) ∧
  (∀ w : Word, decode w = .ok .nop ↔ w = 0) ∧
  (∀ w : Word, w.toNat % 32 = 0 → w ≠ 0 → ∃ r, decode w = .error r) ∧
  (∃ t : State, Sys2Proof.core.run 2 { State.reset with agenda := [.host (.write .word 0x010 0#32), .engine] } = .next t ∧
    t.statusWord = 0x00000002#32 ∧ t = { State.reset with done := true, reply := t.reply })

/-! ## Modular inverse -/

/-- 41_modular_inverse.md R152: for `m ≥ 2` and `gcd(a, m) = 1`, `INV(a, m)` is the unique `r` below `m` with
`a · r ≡ 1 (mod m)`, and `MODINV` completes with it in `VAL`, the report written explicitly (log entry 5). -/
def Obligations.ModinvFindsTheInverse : Prop :=
  (∀ a m : Nat, 2 ≤ m → Nat.gcd a m = 1 →
    ∃ r, inv a m = .ok r ∧ r < m ∧ a * r % m = 1 ∧ ∀ r', r' < m → a * r' % m = 1 → r' = r) ∧
  (∀ s : State, 2 ≤ s.opm.toNat → Nat.gcd s.opa.toNat s.opm.toNat = 1 →
    ∃ r, r < s.opm.toNat ∧ s.opa.toNat * r % s.opm.toNat = 1 ∧
      exec .modinv s = .next { s with val := BitVec.ofNat 128 r, busy := false, done := true, errcode := 0, erridx := 0,
                                      erry := false, rlen := 0 })

/-- 41_modular_inverse.md R153: for `m ≥ 2`, `INV(a, m)` fails with `E_NOINV` exactly when `gcd(a, m) ≠ 1`; `MODINV` then
reports code 5 and keeps `VAL`. -/
def Obligations.ModinvFailsExactlyWithoutInverse : Prop :=
  (∀ a m : Nat, 2 ≤ m → (inv a m = .error .noInv ↔ Nat.gcd a m ≠ 1)) ∧
  (∀ s : State, 2 ≤ s.opm.toNat → Nat.gcd s.opa.toNat s.opm.toNat ≠ 1 →
    exec .modinv s =
      .next { s with busy := false, done := true, errcode := 5, erridx := 0, erry := false, rlen := 0 })

/-- 41_modular_inverse.md R151, corner cases: `OPM = 0` fails with `E_MODULUS` (code 3); `OPM = 1` gives 0 for every
`OPA`; with `OPM ≥ 2`, `OPA = 1` gives 1 and `OPA = OPM − 1` gives `OPM − 1`. -/
def Obligations.ModinvCornerCases : Prop :=
  ∀ s : State,
    (s.opm.toNat = 0 → exec .modinv s =
      .next { s with busy := false, done := true, errcode := 3, erridx := 0, erry := false, rlen := 0 }) ∧
    (s.opm.toNat = 1 → exec .modinv s =
      .next { s with val := 0, busy := false, done := true, errcode := 0, erridx := 0, erry := false, rlen := 0 }) ∧
    (2 ≤ s.opm.toNat → s.opa.toNat = 1 → exec .modinv s =
      .next { s with val := 1, busy := false, done := true, errcode := 0, erridx := 0, erry := false, rlen := 0 }) ∧
    (2 ≤ s.opm.toNat → s.opa.toNat + 1 = s.opm.toNat → exec .modinv s =
      .next { s with val := s.opa, busy := false, done := true, errcode := 0, erridx := 0, erry := false, rlen := 0 })

/-- 41_modular_inverse.md R155: the loop of `INV` terminates for every input, after at most `max(a, m)` iterations. After
`n` of them it stands at one of its own exits (`s ≤ 1`, or `t = 0`) for the first time, and with every bound above `n`,
`a + m + 1` among them, the model's loop answers what that exit gives: the coefficient where `s = 1`, a failure otherwise.
So the bound the model's loop carries is never reached (log entry 9, DEDUCED). -/
def Obligations.InverseLoopBoundNeverReached : Prop :=
  ∀ a m : Nat, ∃ n, n ≤ max a m ∧
    (∀ k < n, 1 < (euclidAt a m k).s ∧ (euclidAt a m k).t ≠ 0) ∧
    ((euclidAt a m n).s ≤ 1 ∨ (euclidAt a m n).t = 0) ∧
    ∀ fuel, n < fuel → invLoop fuel a m 0 1 = if (euclidAt a m n).s = 1 then some (euclidAt a m n).x1 else none

/-! ## Checks -/

/-- 40_command.md R124: every command with a variable length first fails with `E_LENGTH(0, 0)` (code 2) if a length
exceeds 128. -/
def Obligations.LongLengthsFail : Prop :=
  ∀ (s : State) (u : Bool) (nx ny : Nat),
    let failed : Host.Outcome State Fault Refusal :=
      .next { s with busy := false, done := true, errcode := 2, erridx := 0, erry := false, rlen := 0 }
    (128 < nx → exec (.crtEnc nx) s = failed ∧ exec (.crtDec nx) s = failed ∧ exec (.mrDec u nx) s = failed ∧
      exec (.mrDecp u nx) s = failed ∧ exec (.mrRec u nx) s = failed) ∧
    (128 < nx ∨ 128 < ny → exec (.addq nx ny) s = failed ∧ exec (.addqc nx ny) s = failed)

/-- 42_mixed_radix.md R170, 44_crt.md R220: with the length in range, a zero among the moduli in use fails with
`E_MODULUS` (code 3) at the lowest such position; `QBASE = 0` fails at position 0 whatever the length. -/
def Obligations.ZeroModulusFails : Prop :=
  ∀ (s : State) (k : Nat), k ≤ 128 →
    (∀ i (h : i < 128), i < k → s.mod[i] = 0 → (∀ j (h' : j < 128), j < i → s.mod[j] ≠ 0) →
      let failed : Host.Outcome State Fault Refusal :=
        .next { s with busy := false, done := true, errcode := 3, erridx := BitVec.ofNat 8 i, erry := false, rlen := 0 }
      exec (.crtEnc k) s = failed ∧ exec (.crtDec k) s = failed ∧ exec (.mrDec false k) s = failed ∧
        exec (.mrDecp false k) s = failed ∧ exec (.mrRec false k) s = failed) ∧
    (s.qbase = 0 →
      let failed : Host.Outcome State Fault Refusal :=
        .next { s with busy := false, done := true, errcode := 3, erridx := 0, erry := false, rlen := 0 }
      exec (.mrDec true k) s = failed ∧ exec (.mrDecp true k) s = failed ∧ exec (.mrRec true k) s = failed)

/-- 42_mixed_radix.md R178, 44_crt.md R226: with length and moduli in order, an input digit not below its modulus fails
with `E_DIGIT` (code 4) at the lowest such position of `X`. -/
def Obligations.DigitOutOfRangeFails : Prop :=
  ∀ (s : State) (k : Nat), k ≤ 128 → ∀ i (h : i < 128), i < k →
    let failed : Host.Outcome State Fault Refusal :=
      .next { s with busy := false, done := true, errcode := 4, erridx := BitVec.ofNat 8 i, erry := false, rlen := 0 }
    ((∀ m ∈ digits s.mod k, m ≠ 0) → s.mod[i].toNat ≤ s.x[i].toNat →
      (∀ j (h' : j < 128), j < i → s.x[j].toNat < s.mod[j].toNat) →
      exec (.crtDec k) s = failed ∧ exec (.mrRec false k) s = failed) ∧
    (s.qbase ≠ 0 → s.qbase.toNat ≤ s.x[i].toNat → (∀ j (h' : j < 128), j < i → s.x[j].toNat < s.qbase.toNat) →
      exec (.mrRec true k) s = failed)

/-- 43_base_q_adder.md R200, R205: the checks of `ADDQ` and `ADDQC` in their order: a length above 128 (and `NY > NX` for
`ADDQ`), `QBASE = 0` even with empty operands, the lowest bad digit of `X`, then the lowest bad digit of `Y`. -/
def Obligations.AdderChecksInOrder : Prop :=
  ∀ (s : State) (nx ny : Nat),
    let failed (code : BitVec 4) (idx : Nat) (inY : Bool) : Host.Outcome State Fault Refusal :=
      .next { s with busy := false, done := true, errcode := code, erridx := BitVec.ofNat 8 idx, erry := inY, rlen := 0 }
    (128 < nx ∨ 128 < ny → exec (.addq nx ny) s = failed 2 0 false ∧ exec (.addqc nx ny) s = failed 2 0 false) ∧
    (nx < ny → exec (.addq nx ny) s = failed 2 0 false) ∧
    (nx ≤ 128 → ny ≤ 128 →
      (s.qbase = 0 → (ny ≤ nx → exec (.addq nx ny) s = failed 3 0 false) ∧ exec (.addqc nx ny) s = failed 3 0 false) ∧
      (s.qbase ≠ 0 → ∀ i (h : i < 128), i < nx → s.qbase.toNat ≤ s.x[i].toNat →
        (∀ j (h' : j < 128), j < i → s.x[j].toNat < s.qbase.toNat) →
        (ny ≤ nx → exec (.addq nx ny) s = failed 4 i false) ∧ exec (.addqc nx ny) s = failed 4 i false) ∧
      (s.qbase ≠ 0 → (∀ j (h' : j < 128), j < nx → s.x[j].toNat < s.qbase.toNat) →
        ∀ i (h : i < 128), i < ny → s.qbase.toNat ≤ s.y[i].toNat →
        (∀ j (h' : j < 128), j < i → s.y[j].toNat < s.qbase.toNat) →
        (ny ≤ nx → exec (.addq nx ny) s = failed 4 i true) ∧ exec (.addqc nx ny) s = failed 4 i true))

/-! ## CRT codec -/

/-- 44_crt.md R221, R222: with the length in range and no zero modulus, whatever `VAL` is, `CRT.ENC` completes with
`X[i] = VAL mod MOD[i]`, each below its modulus, `RLEN = k`, and every entry from `k` on kept; whenever it succeeds the
residues are well-formed, and it fails only with `E_LENGTH` or `E_MODULUS` (codes 2, 3), so it never overflows. -/
def Obligations.CrtEncWritesResidues : Prop :=
  (∀ (s : State) (k : Nat), k ≤ 128 → (∀ m ∈ digits s.mod k, m ≠ 0) →
    ∃ x' : Buffer, exec (.crtEnc k) s =
        .next { s with x := x', busy := false, done := true, errcode := 0, erridx := 0, erry := false,
                       rlen := BitVec.ofNat 8 k } ∧
      (∀ i (h : i < 128), i < k → x'[i].toNat = s.val.toNat % s.mod[i].toNat ∧ x'[i].toNat < s.mod[i].toNat) ∧
      agreeFrom k x' s.x) ∧
  (∀ (s t : State) (k : Nat), exec (.crtEnc k) s = .next t →
    (t.errcode = 0 → ∀ i (h : i < 128), i < k → t.x[i].toNat < t.mod[i].toNat) ∧
    (t.errcode ≠ 0 → t.errcode = 2 ∨ t.errcode = 3))

/-- 44_crt.md R226, R227, R228: with length, moduli and residues in order, `M < 2^128` and pairwise-coprime moduli, `CRT.DEC`
completes with the unique `v` below `M` congruent to every residue; and whenever it succeeds, `VAL` is that value. -/
def Obligations.CrtDecSolvesTheCongruences : Prop :=
  (∀ (s : State) (k : Nat), k ≤ 128 → (∀ m ∈ digits s.mod k, m ≠ 0) → DigitsBelow (digits s.x k) (digits s.mod k) →
    (digits s.mod k).prod < 2 ^ 128 → (digits s.mod k).Pairwise Nat.Coprime →
    ∃ v, v < (digits s.mod k).prod ∧ (∀ i (h : i < 128), i < k → v % s.mod[i].toNat = s.x[i].toNat) ∧
      exec (.crtDec k) s = .next { s with val := BitVec.ofNat 128 v, busy := false, done := true, errcode := 0,
                                          erridx := 0, erry := false, rlen := 0 }) ∧
  (∀ (s t : State) (k : Nat), exec (.crtDec k) s = .next t → t.errcode = 0 →
    t.val.toNat < (digits s.mod k).prod ∧
    (∀ i (h : i < 128), i < k → t.val.toNat % s.mod[i].toNat = s.x[i].toNat) ∧
    (∀ v, v < (digits s.mod k).prod → (∀ i (h : i < 128), i < k → v % s.mod[i].toNat = s.x[i].toNat) →
      v = t.val.toNat))

/-- 44_crt.md R228, with the checks that come before it made explicit (the residues in range, R226): `CRT.DEC` fails with
`E_NOINV` (code 5) exactly when the moduli are not pairwise coprime, at the lowest position whose modulus shares a factor
with another. -/
def Obligations.CrtDecFailsExactlyWithoutCoprimality : Prop :=
  ∀ (s : State) (k : Nat), k ≤ 128 → (∀ m ∈ digits s.mod k, m ≠ 0) → DigitsBelow (digits s.x k) (digits s.mod k) →
    (digits s.mod k).prod < 2 ^ 128 →
    (¬ (digits s.mod k).Pairwise Nat.Coprime →
      ∃ (i : Nat) (h : i < 128), i < k ∧
        (∃ (j : Nat) (h' : j < 128), j < k ∧ j ≠ i ∧ ¬ Nat.Coprime s.mod[i].toNat s.mod[j].toNat) ∧
        (∀ i' (_ : i' < i) j (h' : j < 128), j < k → j ≠ i' → Nat.Coprime s.mod[i'].toNat s.mod[j].toNat) ∧
        exec (.crtDec k) s = .next { s with busy := false, done := true, errcode := 5, erridx := BitVec.ofNat 8 i,
                                            erry := false, rlen := 0 }) ∧
    (∀ t, exec (.crtDec k) s = .next t → t.errcode = 5 → ¬ (digits s.mod k).Pairwise Nat.Coprime)

/-- 44_crt.md R223: a CRT modulus of `2^128` or more fails with `E_OVERFLOW` (code 6), once length, moduli and residues
are in order. -/
def Obligations.CrtDecOverflows : Prop :=
  ∀ (s : State) (k : Nat), k ≤ 128 → (∀ m ∈ digits s.mod k, m ≠ 0) → DigitsBelow (digits s.x k) (digits s.mod k) →
    2 ^ 128 ≤ (digits s.mod k).prod →
    exec (.crtDec k) s =
      .next { s with busy := false, done := true, errcode := 6, erridx := 0, erry := false, rlen := 0 }

/-- 44_crt.md R229: under pairwise-coprime nonzero moduli with `M < 2^128` and `VAL < M`, `crt.enc k` and then `crt.dec k`
restores `VAL`, whatever the host left in `VAL` between them. -/
def Obligations.CrtRoundTripRestoresValue : Prop :=
  ∀ (s : State) (k : Nat) (v : Value), k ≤ 128 → (∀ m ∈ digits s.mod k, m ≠ 0) →
    (digits s.mod k).Pairwise Nat.Coprime → (digits s.mod k).prod < 2 ^ 128 → s.val.toNat < (digits s.mod k).prod →
    ∃ t, exec (.crtEnc k) s = .next t ∧ t.errcode = 0 ∧
      exec (.crtDec k) { t with val := v } = .next { t with val := s.val, rlen := 0 }

/-! ## Mixed-radix codec -/

/-- 42_mixed_radix.md R174, with R171, R172, R175: where the value fits, `MR.DEC` and `MR.DECP` complete with the digits of
`VAL`, well-formed under the moduli, entries from `k` on kept; `RLEN` is `k` for `MR.DECP`, and for `MR.DEC` the natural
length: 1 for 0 (0 if `k = 0`), else one more than the index of the most significant nonzero digit. The digits are as said
whenever either command succeeds. -/
def Obligations.DecomposeWritesTheDigits : Prop :=
  (∀ (s : State) (u : Bool) (k : Nat), k ≤ 128 → ModuliNonzero s u k → s.val.toNat < (modulusSequence s u k).prod →
    ∃ (x' : Buffer) (n : Nat),
      exec (.mrDec u k) s = .next { s with x := x', busy := false, done := true, errcode := 0, erridx := 0, erry := false,
                                           rlen := BitVec.ofNat 8 n } ∧
      exec (.mrDecp u k) s = .next { s with x := x', busy := false, done := true, errcode := 0, erridx := 0, erry := false,
                                            rlen := BitVec.ofNat 8 k } ∧
      digitValue (digits x' k) (modulusSequence s u k) = s.val.toNat ∧
      DigitsBelow (digits x' k) (modulusSequence s u k) ∧ agreeFrom k x' s.x ∧
      n ≤ k ∧ (∀ i (h : i < 128), n ≤ i → i < k → x'[i] = 0) ∧
      (s.val = 0 → n = min 1 k) ∧ (s.val ≠ 0 → ∃ (h : n - 1 < 128), 0 < n ∧ x'[n - 1] ≠ 0)) ∧
  (∀ (s t : State) (u : Bool) (k : Nat), exec (.mrDec u k) s = .next t ∨ exec (.mrDecp u k) s = .next t → t.errcode = 0 →
    digitValue (digits t.x k) (modulusSequence s u k) = s.val.toNat ∧
    DigitsBelow (digits t.x k) (modulusSequence s u k))

/-- 42_mixed_radix.md R173: `DECOMP(x, m)` overflows exactly when `x ≥ Π m[i]`; both commands then fail with `E_OVERFLOW`
(code 6) and keep `X`. -/
def Obligations.DecomposeOverflowsExactly : Prop :=
  (∀ (x : Nat) (ms : List Nat), (∀ m ∈ ms, m ≠ 0) → (decomp x ms = none ↔ ms.prod ≤ x)) ∧
  (∀ (s : State) (u : Bool) (k : Nat), k ≤ 128 → ModuliNonzero s u k → (modulusSequence s u k).prod ≤ s.val.toNat →
    exec (.mrDec u k) s =
      .next { s with busy := false, done := true, errcode := 6, erridx := 0, erry := false, rlen := 0 } ∧
    exec (.mrDecp u k) s =
      .next { s with busy := false, done := true, errcode := 6, erridx := 0, erry := false, rlen := 0 })

/-- 42_mixed_radix.md R176: from states with the same `VAL`, `QBASE` and `MOD`, `MR.DEC` and `MR.DECP` write the same
`X[0..k-1]` and raise the same errors at the same positions; from one state the results differ only in `RLEN`. -/
def Obligations.DecomposeVariantsDifferOnlyInLength : Prop :=
  (∀ (s s' : State) (u : Bool) (k : Nat), s.val = s'.val → s.qbase = s'.qbase → s.mod = s'.mod →
    ∃ t t', exec (.mrDec u k) s = .next t ∧ exec (.mrDecp u k) s' = .next t' ∧
      t.errcode = t'.errcode ∧ t.erridx = t'.erridx ∧ t.erry = t'.erry ∧
      (t.errcode = 0 → agreeBelow k t.x t'.x)) ∧
  (∀ (s : State) (u : Bool) (k : Nat), ∃ t t', exec (.mrDec u k) s = .next t ∧ exec (.mrDecp u k) s = .next t' ∧
    t' = { t with rlen := t'.rlen })

/-- 42_mixed_radix.md R177: `HORNER(d, m)` is the digit vector's value, and the modulus of the top position does not
affect it. -/
def Obligations.HornerIsTheDigitValue : Prop :=
  (∀ ds ms : List Nat, ds.length = ms.length → horner ds ms = digitValue ds ms) ∧
  (∀ (ds ms : List Nat) (d m m' : Nat), ds.length = ms.length → horner (ds ++ [d]) (ms ++ [m]) = horner (ds ++ [d]) (ms ++ [m']))

/-- 42_mixed_radix.md R178, 00_scope.md R11: with length, moduli and digits in order, `MR.REC` completes with the value of
the digits if it is below `2^128`, and fails with `E_OVERFLOW` (code 6) otherwise. -/
def Obligations.ReconstructRebuildsTheValue : Prop :=
  ∀ (s : State) (u : Bool) (n : Nat), n ≤ 128 → ModuliNonzero s u n →
    DigitsBelow (digits s.x n) (modulusSequence s u n) →
    (digitValue (digits s.x n) (modulusSequence s u n) < 2 ^ 128 →
      exec (.mrRec u n) s =
        .next { s with val := BitVec.ofNat 128 (digitValue (digits s.x n) (modulusSequence s u n)), busy := false,
                       done := true, errcode := 0, erridx := 0, erry := false, rlen := 0 }) ∧
    (2 ^ 128 ≤ digitValue (digits s.x n) (modulusSequence s u n) →
      exec (.mrRec u n) s =
        .next { s with busy := false, done := true, errcode := 6, erridx := 0, erry := false, rlen := 0 })

/-- 42_mixed_radix.md R180: after a successful `MR.DEC` or `MR.DECP`, `MR.REC` with the same `U` and moduli and `n` either
`k` or the natural length (the `RLEN` of `MR.DEC`) succeeds and restores `VAL`, whatever the host left in `VAL`. -/
def Obligations.MixedRadixRoundTrip : Prop :=
  ∀ (s t t' : State) (u : Bool) (k n : Nat) (v : Value),
    exec (.mrDec u k) s = .next t → exec (.mrDecp u k) s = .next t' → t.errcode = 0 ∨ t'.errcode = 0 →
    n = k ∨ n = t.rlen.toNat →
    t.errcode = 0 ∧ t'.errcode = 0 ∧
    exec (.mrRec u n) { t with val := v } = .next { t with val := s.val, rlen := 0 } ∧
    exec (.mrRec u n) { t' with val := v } = .next { t' with val := s.val, rlen := 0 }

/-- 30_encoding.md R104: with `QBASE = 2`, `mr.decp.u 128` leaves bit `i` of `VAL` in `X[i]` and never overflows, and
`mr.rec.u 128` then rebuilds `VAL`. -/
def Obligations.BitRoundTrip : Prop :=
  ∀ (s : State) (v : Value), s.qbase = 2 →
    ∃ t, exec (.mrDecp true 128) s = .next t ∧ t.errcode = 0 ∧
      (∀ i (h : i < 128), t.x[i] = (BitVec.ofBool (s.val.getLsbD i)).setWidth 16) ∧
      exec (.mrRec true 128) { t with val := v } = .next { t with val := s.val, rlen := 0 }

/-! ## Base-q adder -/

/-- 43_base_q_adder.md R204: with lengths, base and digits in order `ADDQ` completes with `x + y mod q^NX` in
`X[0..NX-1]`, entries from `NX` on kept, `RLEN = NX`, and `E_CARRY` (code 7) exactly when `x + y ≥ q^NX`; and the same
holds of every completion that reports code 0 or 7. -/
def Obligations.AddqAddsModuloThePower : Prop :=
  (∀ (s : State) (nx ny : Nat), ny ≤ nx → nx ≤ 128 → s.qbase ≠ 0 →
    DigitsBelow (digits s.x nx) (List.replicate nx s.qbase.toNat) →
    DigitsBelow (digits s.y ny) (List.replicate ny s.qbase.toNat) →
    let q := s.qbase.toNat
    let sum := digitValue (digits s.x nx) (List.replicate nx q) + digitValue (digits s.y ny) (List.replicate ny q)
    ∃ x' : Buffer,
      exec (.addq nx ny) s =
        .next { s with x := x', busy := false, done := true, errcode := if q ^ nx ≤ sum then 7 else 0, erridx := 0,
                       erry := false, rlen := BitVec.ofNat 8 nx } ∧
      digitValue (digits x' nx) (List.replicate nx q) = sum % q ^ nx ∧
      DigitsBelow (digits x' nx) (List.replicate nx q) ∧ agreeFrom nx x' s.x) ∧
  (∀ (s t : State) (nx ny : Nat), exec (.addq nx ny) s = .next t → t.errcode = 0 ∨ t.errcode = 7 →
    let q := s.qbase.toNat
    let sum := digitValue (digits s.x nx) (List.replicate nx q) + digitValue (digits s.y ny) (List.replicate ny q)
    digitValue (digits t.x nx) (List.replicate nx q) = sum % q ^ nx ∧ (t.errcode = 7 ↔ q ^ nx ≤ sum))

/-- 43_base_q_adder.md R207: the same of `ADDQC` with `L = max(NX, NY)`, in any length order; exchanging the operands
changes neither the digits nor the code. -/
def Obligations.AddqcAddsModuloThePower : Prop :=
  (∀ (s : State) (nx ny : Nat), nx ≤ 128 → ny ≤ 128 → s.qbase ≠ 0 →
    DigitsBelow (digits s.x nx) (List.replicate nx s.qbase.toNat) →
    DigitsBelow (digits s.y ny) (List.replicate ny s.qbase.toNat) →
    let q := s.qbase.toNat
    let sum := digitValue (digits s.x nx) (List.replicate nx q) + digitValue (digits s.y ny) (List.replicate ny q)
    ∃ x' : Buffer,
      exec (.addqc nx ny) s =
        .next { s with x := x', busy := false, done := true, errcode := if q ^ max nx ny ≤ sum then 7 else 0,
                       erridx := 0, erry := false, rlen := BitVec.ofNat 8 (max nx ny) } ∧
      digitValue (digits x' (max nx ny)) (List.replicate (max nx ny) q) = sum % q ^ max nx ny ∧
      DigitsBelow (digits x' (max nx ny)) (List.replicate (max nx ny) q) ∧ agreeFrom (max nx ny) x' s.x) ∧
  (∀ (s t : State) (nx ny : Nat), exec (.addqc nx ny) s = .next t → t.errcode = 0 ∨ t.errcode = 7 →
    let q := s.qbase.toNat
    let sum := digitValue (digits s.x nx) (List.replicate nx q) + digitValue (digits s.y ny) (List.replicate ny q)
    digitValue (digits t.x (max nx ny)) (List.replicate (max nx ny) q) = sum % q ^ max nx ny ∧
      (t.errcode = 7 ↔ q ^ max nx ny ≤ sum)) ∧
  (∀ (s s' t t' : State) (nx ny : Nat), s'.qbase = s.qbase → digits s'.x ny = digits s.y ny →
    digits s'.y nx = digits s.x nx → exec (.addqc nx ny) s = .next t → exec (.addqc ny nx) s' = .next t' →
    t.errcode = 0 ∨ t.errcode = 7 →
    digits t'.x (max nx ny) = digits t.x (max nx ny) ∧ t'.errcode = t.errcode ∧ t'.rlen = t.rlen)

/-! ## All commands -/

/-- 10_state.md R42 (written columns), 40_command.md R121: a completion changes nothing but the report, `VAL` for the three
commands that return a value, and the entries of `X` below the command's bound. -/
def Obligations.CommandsWriteOnlyTheirRegisters : Prop :=
  ∀ (i : Instr) (s t : State), exec i s = .next t →
    t = { s with val := t.val, x := t.x, busy := false, done := true, errcode := t.errcode, erridx := t.erridx,
                 erry := t.erry, rlen := t.rlen } ∧
    (writesVal i = false → t.val = s.val) ∧ agreeFrom (xWriteBound i) t.x s.x

/-- 40_command.md R128, 10_state.md R42 (read columns): the report and the results of a completion depend on nothing but
the registers and entries the command reads. -/
def Obligations.CompletionDependsOnlyOnItsOperands : Prop :=
  ∀ (i : Instr) (s s' t t' : State), agreeOnReads i s s' → exec i s = .next t → exec i s' = .next t' →
    sameReport t t' ∧ (writesVal i = true → t.errcode = 0 → t.val = t'.val) ∧
    (t.errcode = 0 ∨ t.errcode = 7 → agreeBelow (xWriteBound i) t.x t'.x)

/-- 60_exceptions.md R245, 40_command.md R126: a completion with a code other than 0 and `E_CARRY` writes no data register
and reports `RLEN = 0`; `E_CARRY` (code 7) comes from `ADDQ` and `ADDQC` only. -/
def Obligations.FailedCommandsWriteNoData : Prop :=
  ∀ (i : Instr) (s t : State), exec i s = .next t →
    (t.errcode ≠ 0 → t.errcode ≠ 7 → sameData t s ∧ t.rlen = 0) ∧
    (t.errcode = 7 → ∃ nx ny, i = .addq nx ny ∨ i = .addqc nx ny)
end

