-- ==== Sys2Proof/Laws/State.lean ====
section
/-! SUPPORT. One lemma per field for each record update of Machine/Ops.lean, and the shared ends of a command in terms of
`complete`. -/

namespace Sys2Proof.Machine

/-! ### `State.issue` -/

@[simp] theorem State.issue_ie (s : State) (w : Word) : (s.issue w).ie = s.ie := rfl
@[simp] theorem State.issue_busy (s : State) (w : Word) : (s.issue w).busy = true := rfl
@[simp] theorem State.issue_done (s : State) (w : Word) : (s.issue w).done = false := rfl
@[simp] theorem State.issue_coll (s : State) (w : Word) : (s.issue w).coll = s.coll := rfl
@[simp] theorem State.issue_errcode (s : State) (w : Word) : (s.issue w).errcode = 0 := rfl
@[simp] theorem State.issue_rlen (s : State) (w : Word) : (s.issue w).rlen = 0 := rfl
@[simp] theorem State.issue_erridx (s : State) (w : Word) : (s.issue w).erridx = 0 := rfl
@[simp] theorem State.issue_erry (s : State) (w : Word) : (s.issue w).erry = false := rfl
@[simp] theorem State.issue_cmd (s : State) (w : Word) : (s.issue w).cmd = w := rfl
@[simp] theorem State.issue_qbase (s : State) (w : Word) : (s.issue w).qbase = s.qbase := rfl
@[simp] theorem State.issue_val (s : State) (w : Word) : (s.issue w).val = s.val := rfl
@[simp] theorem State.issue_opa (s : State) (w : Word) : (s.issue w).opa = s.opa := rfl
@[simp] theorem State.issue_opm (s : State) (w : Word) : (s.issue w).opm = s.opm := rfl
@[simp] theorem State.issue_mod (s : State) (w : Word) : (s.issue w).mod = s.mod := rfl
@[simp] theorem State.issue_x (s : State) (w : Word) : (s.issue w).x = s.x := rfl
@[simp] theorem State.issue_y (s : State) (w : Word) : (s.issue w).y = s.y := rfl
@[simp] theorem State.issue_agenda (s : State) (w : Word) : (s.issue w).agenda = s.agenda := rfl
@[simp] theorem State.issue_draws (s : State) (w : Word) : (s.issue w).draws = s.draws := rfl
@[simp] theorem State.issue_reply (s : State) (w : Word) : (s.issue w).reply = s.reply := rfl

/-! ### `State.complete` -/

@[simp] theorem State.complete_ie (s : State) (r : Report) : (s.complete r).ie = s.ie := rfl
@[simp] theorem State.complete_busy (s : State) (r : Report) : (s.complete r).busy = false := rfl
@[simp] theorem State.complete_done (s : State) (r : Report) : (s.complete r).done = true := rfl
@[simp] theorem State.complete_coll (s : State) (r : Report) : (s.complete r).coll = s.coll := rfl
@[simp] theorem State.complete_errcode (s : State) (r : Report) : (s.complete r).errcode = r.code.code := rfl
@[simp] theorem State.complete_rlen (s : State) (r : Report) : (s.complete r).rlen = BitVec.ofNat 8 r.rlen := rfl
@[simp] theorem State.complete_erridx (s : State) (r : Report) : (s.complete r).erridx = BitVec.ofNat 8 r.idx := rfl
@[simp] theorem State.complete_erry (s : State) (r : Report) : (s.complete r).erry = r.inY := rfl
@[simp] theorem State.complete_cmd (s : State) (r : Report) : (s.complete r).cmd = s.cmd := rfl
@[simp] theorem State.complete_qbase (s : State) (r : Report) : (s.complete r).qbase = s.qbase := rfl
@[simp] theorem State.complete_val (s : State) (r : Report) : (s.complete r).val = s.val := rfl
@[simp] theorem State.complete_opa (s : State) (r : Report) : (s.complete r).opa = s.opa := rfl
@[simp] theorem State.complete_opm (s : State) (r : Report) : (s.complete r).opm = s.opm := rfl
@[simp] theorem State.complete_mod (s : State) (r : Report) : (s.complete r).mod = s.mod := rfl
@[simp] theorem State.complete_x (s : State) (r : Report) : (s.complete r).x = s.x := rfl
@[simp] theorem State.complete_y (s : State) (r : Report) : (s.complete r).y = s.y := rfl
@[simp] theorem State.complete_agenda (s : State) (r : Report) : (s.complete r).agenda = s.agenda := rfl
@[simp] theorem State.complete_draws (s : State) (r : Report) : (s.complete r).draws = s.draws := rfl
@[simp] theorem State.complete_reply (s : State) (r : Report) : (s.complete r).reply = s.reply := rfl

/-! ### `State.acknowledge` -/

@[simp] theorem State.acknowledge_ie (s : State) (v : Word) : (s.acknowledge v).ie = s.ie := rfl
@[simp] theorem State.acknowledge_busy (s : State) (v : Word) : (s.acknowledge v).busy = s.busy := rfl
@[simp] theorem State.acknowledge_done (s : State) (v : Word) : (s.acknowledge v).done = (s.done && !v.getLsbD 1) := rfl
@[simp] theorem State.acknowledge_coll (s : State) (v : Word) : (s.acknowledge v).coll = (s.coll && !v.getLsbD 3) := rfl
@[simp] theorem State.acknowledge_errcode (s : State) (v : Word) : (s.acknowledge v).errcode = s.errcode := rfl
@[simp] theorem State.acknowledge_rlen (s : State) (v : Word) : (s.acknowledge v).rlen = s.rlen := rfl
@[simp] theorem State.acknowledge_erridx (s : State) (v : Word) : (s.acknowledge v).erridx = s.erridx := rfl
@[simp] theorem State.acknowledge_erry (s : State) (v : Word) : (s.acknowledge v).erry = s.erry := rfl
@[simp] theorem State.acknowledge_cmd (s : State) (v : Word) : (s.acknowledge v).cmd = s.cmd := rfl
@[simp] theorem State.acknowledge_qbase (s : State) (v : Word) : (s.acknowledge v).qbase = s.qbase := rfl
@[simp] theorem State.acknowledge_val (s : State) (v : Word) : (s.acknowledge v).val = s.val := rfl
@[simp] theorem State.acknowledge_opa (s : State) (v : Word) : (s.acknowledge v).opa = s.opa := rfl
@[simp] theorem State.acknowledge_opm (s : State) (v : Word) : (s.acknowledge v).opm = s.opm := rfl
@[simp] theorem State.acknowledge_mod (s : State) (v : Word) : (s.acknowledge v).mod = s.mod := rfl
@[simp] theorem State.acknowledge_x (s : State) (v : Word) : (s.acknowledge v).x = s.x := rfl
@[simp] theorem State.acknowledge_y (s : State) (v : Word) : (s.acknowledge v).y = s.y := rfl
@[simp] theorem State.acknowledge_agenda (s : State) (v : Word) : (s.acknowledge v).agenda = s.agenda := rfl
@[simp] theorem State.acknowledge_draws (s : State) (v : Word) : (s.acknowledge v).draws = s.draws := rfl
@[simp] theorem State.acknowledge_reply (s : State) (v : Word) : (s.acknowledge v).reply = s.reply := rfl

/-! ### `State.collide` -/

@[simp] theorem State.collide_ie (s : State) : (s.collide).ie = s.ie := rfl
@[simp] theorem State.collide_busy (s : State) : (s.collide).busy = s.busy := rfl
@[simp] theorem State.collide_done (s : State) : (s.collide).done = s.done := rfl
@[simp] theorem State.collide_coll (s : State) : (s.collide).coll = true := rfl
@[simp] theorem State.collide_errcode (s : State) : (s.collide).errcode = s.errcode := rfl
@[simp] theorem State.collide_rlen (s : State) : (s.collide).rlen = s.rlen := rfl
@[simp] theorem State.collide_erridx (s : State) : (s.collide).erridx = s.erridx := rfl
@[simp] theorem State.collide_erry (s : State) : (s.collide).erry = s.erry := rfl
@[simp] theorem State.collide_cmd (s : State) : (s.collide).cmd = s.cmd := rfl
@[simp] theorem State.collide_qbase (s : State) : (s.collide).qbase = s.qbase := rfl
@[simp] theorem State.collide_val (s : State) : (s.collide).val = s.val := rfl
@[simp] theorem State.collide_opa (s : State) : (s.collide).opa = s.opa := rfl
@[simp] theorem State.collide_opm (s : State) : (s.collide).opm = s.opm := rfl
@[simp] theorem State.collide_mod (s : State) : (s.collide).mod = s.mod := rfl
@[simp] theorem State.collide_x (s : State) : (s.collide).x = s.x := rfl
@[simp] theorem State.collide_y (s : State) : (s.collide).y = s.y := rfl
@[simp] theorem State.collide_agenda (s : State) : (s.collide).agenda = s.agenda := rfl
@[simp] theorem State.collide_draws (s : State) : (s.collide).draws = s.draws := rfl
@[simp] theorem State.collide_reply (s : State) : (s.collide).reply = s.reply := rfl

/-! ### `State.hardReset` -/

@[simp] theorem State.hardReset_ie (s : State) : (s.hardReset).ie = State.reset.ie := rfl
@[simp] theorem State.hardReset_busy (s : State) : (s.hardReset).busy = State.reset.busy := rfl
@[simp] theorem State.hardReset_done (s : State) : (s.hardReset).done = State.reset.done := rfl
@[simp] theorem State.hardReset_coll (s : State) : (s.hardReset).coll = State.reset.coll := rfl
@[simp] theorem State.hardReset_errcode (s : State) : (s.hardReset).errcode = State.reset.errcode := rfl
@[simp] theorem State.hardReset_rlen (s : State) : (s.hardReset).rlen = State.reset.rlen := rfl
@[simp] theorem State.hardReset_erridx (s : State) : (s.hardReset).erridx = State.reset.erridx := rfl
@[simp] theorem State.hardReset_erry (s : State) : (s.hardReset).erry = State.reset.erry := rfl
@[simp] theorem State.hardReset_cmd (s : State) : (s.hardReset).cmd = State.reset.cmd := rfl
@[simp] theorem State.hardReset_qbase (s : State) : (s.hardReset).qbase = State.reset.qbase := rfl
@[simp] theorem State.hardReset_val (s : State) : (s.hardReset).val = State.reset.val := rfl
@[simp] theorem State.hardReset_opa (s : State) : (s.hardReset).opa = State.reset.opa := rfl
@[simp] theorem State.hardReset_opm (s : State) : (s.hardReset).opm = State.reset.opm := rfl
@[simp] theorem State.hardReset_mod (s : State) : (s.hardReset).mod = State.reset.mod := rfl
@[simp] theorem State.hardReset_x (s : State) : (s.hardReset).x = State.reset.x := rfl
@[simp] theorem State.hardReset_y (s : State) : (s.hardReset).y = State.reset.y := rfl
@[simp] theorem State.hardReset_agenda (s : State) : (s.hardReset).agenda = s.agenda := rfl
@[simp] theorem State.hardReset_draws (s : State) : (s.hardReset).draws = s.draws := rfl
@[simp] theorem State.hardReset_reply (s : State) : (s.hardReset).reply = s.reply := rfl

/-! ### The ends of a command -/

@[simp] theorem State.raise_eq_complete (s : State) (r : Raise) : s.raise r = s.complete ⟨r.code, r.idx, r.inY, 0⟩ := rfl
@[simp] theorem State.succeed_eq_complete (s : State) (n : Nat) : s.succeed n = s.complete ⟨.none, 0, false, n⟩ := rfl
@[simp] theorem State.carryOut_eq_complete (s : State) (n : Nat) : s.carryOut n = s.complete ⟨.carry, 0, false, n⟩ := rfl
@[simp] theorem State.illegalCommand_eq_complete (s : State) : s.illegalCommand = s.complete ⟨.illegal, 0, false, 0⟩ := rfl
@[simp] theorem State.conclude_error {α : Type} (s : State) (r : Raise) (f : State → α → State) :
    s.conclude (.error r) f = s.raise r := rfl
@[simp] theorem State.conclude_ok {α : Type} (s : State) (a : α) (f : State → α → State) :
    s.conclude (.ok a) f = f s a := rfl

/-- All that the end of a command's body can do: take a failure the plan found, or store the plan's result. -/
theorem State.conclude_cases {α : Type} (s : State) (plan : Except Raise α) (f : State → α → State) :
    (∃ r, plan = .error r ∧ s.conclude plan f = s.raise r) ∨ (∃ a, plan = .ok a ∧ s.conclude plan f = f s a) := by
  cases plan with
  | error r => exact .inl ⟨r, rfl, rfl⟩
  | ok a => exact .inr ⟨a, rfl, rfl⟩

end Sys2Proof.Machine
end

