-- ==== Sys2Proof/Laws/Buffers.lean ====
section
/-! SUPPORT. Reading and writing a digit buffer: what `digits` reads, what `writeDigits` leaves in each entry, and that
writing what was read changes nothing. -/

namespace Sys2Proof.Machine

/-! ### `digits` -/

@[simp] theorem digits_length (b : Buffer) (n : Nat) : (digits b n).length = min n 128 := by
  simp [digits]

theorem digits_getElem (b : Buffer) (n i : Nat) (h : i < (digits b n).length) :
    (digits b n)[i] = (b[i]'(by simp at h; omega)).toNat := by
  simp [digits]

@[simp] theorem digits_zero (b : Buffer) : digits b 0 = [] := by simp [digits]

/-- A property of every digit read is a property of every entry below the length. -/
theorem forall_mem_digits (b : Buffer) (n : Nat) (P : Nat → Prop) :
    (∀ d ∈ digits b n, P d) ↔ ∀ i (h : i < 128), i < n → P b[i].toNat := by
  constructor
  · intro h i hi hn
    have := h _ (List.getElem_mem (l := digits b n) (n := i) (by simp; omega))
    rwa [digits_getElem] at this
  · intro h d hd
    obtain ⟨i, hi, rfl⟩ := List.getElem_of_mem hd
    rw [digits_getElem]
    exact h i _ (by simp at hi; omega)

theorem digits_lt (b : Buffer) (n : Nat) : ∀ d ∈ digits b n, d < 2 ^ 16 := by
  rw [forall_mem_digits]
  intro i h _
  exact b[i].isLt

/-- `digits` reads no entry from its length on. -/
theorem digits_congr {b b' : Buffer} {n : Nat} (h : agreeBelow n b b') : digits b n = digits b' n := by
  apply List.ext_getElem (by simp)
  intro i hi _
  simp only [digits_length] at hi
  rw [digits_getElem, digits_getElem, h i (by omega) (by omega)]

/-- `digits` reads each entry below its length. -/
theorem agreeBelow_of_digits {b b' : Buffer} {n : Nat} (h : digits b n = digits b' n) : agreeBelow n b b' := by
  intro i hi hn
  have h1 := digits_getElem b n i (by simp; omega)
  have h2 := digits_getElem b' n i (by simp; omega)
  apply BitVec.eq_of_toNat_eq
  rw [← h1, ← h2]
  simp [h]

/-- A shorter read is a prefix of a longer one. -/
theorem digits_take (b : Buffer) {m n : Nat} (h : m ≤ n) : (digits b n).take m = digits b m := by
  simp [digits, ← List.map_take, List.take_take, h]

/-! ### `writeDigits` -/

/-- What a write of at most 128 digits leaves in each entry: the digit written, or the entry's old content. -/
theorem writeDigits_getElem (b : Buffer) (ds : List Nat) (hds : ds.length ≤ 128) (i : Nat) (h : i < 128) :
    (writeDigits b ds)[i] = if h' : i < ds.length then BitVec.ofNat 16 ds[i] else b[i] := by
  simp only [writeDigits, Vector.getElem_mk, List.getElem_toArray, List.getElem_append, List.length_map,
    List.length_take, List.getElem_map, List.getElem_take, List.getElem_drop, Vector.getElem_toList]
  by_cases hi : i < ds.length
  · have : i < min 128 ds.length := by omega
    simp [hi, this]
  · have : ¬ i < min 128 ds.length := by omega
    simp only [hi, this, dite_false]
    congr 1
    omega

/-- A write keeps every entry from its length on. -/
theorem writeDigits_agreeFrom (b : Buffer) (ds : List Nat) (hds : ds.length ≤ 128) :
    agreeFrom ds.length (writeDigits b ds) b := by
  intro i h hi
  rw [writeDigits_getElem b ds hds i h]
  simp [Nat.not_lt.mpr hi]

/-- Digits that fit an entry read back as they were written. -/
theorem digits_writeDigits (b : Buffer) (ds : List Nat) (hds : ds.length ≤ 128) (hlt : ∀ d ∈ ds, d < 2 ^ 16) :
    digits (writeDigits b ds) ds.length = ds := by
  apply List.ext_getElem
  · simp; omega
  · intro i hi hi'
    rw [digits_getElem, writeDigits_getElem b ds hds]
    simp only [hi', dite_true, BitVec.toNat_ofNat]
    exact Nat.mod_eq_of_lt (hlt _ (List.getElem_mem _))

@[simp] theorem writeDigits_nil (b : Buffer) : writeDigits b [] = b := by
  apply Vector.ext
  intro i hi
  rw [writeDigits_getElem b [] (by simp) i hi]
  simp

end Sys2Proof.Machine
end

