-- ==== Sys2Proof/Laws/Checks.lean ====
section
/-! SUPPORT. All that each check of Machine/Operands.lean can answer: it passes and its condition holds, or it fails at the
lowest position at fault (40_command.md R125). -/

namespace Sys2Proof.Machine

@[simp] theorem checkLengths_eq (nx ny : Nat) :
    checkLengths nx ny = if nx ≤ 128 ∧ ny ≤ 128 then .ok () else .error ⟨.length, 0, false⟩ := by
  by_cases h : nx ≤ 128 ∧ ny ≤ 128
  · rw [if_pos h, checkLengths, if_neg (by simp only [Config.nDig]; omega)]
  · rw [if_neg h, checkLengths, if_pos (by simp only [Config.nDig]; omega)]

/-- `findIdx?` finds nothing, or the first position that satisfies the test. -/
theorem findIdx_cases {α : Type} (p : α → Bool) (l : List α) :
    (l.findIdx? p = none ∧ ∀ a ∈ l, p a = false) ∨
    (∃ (i : Nat) (h : i < l.length), l.findIdx? p = some i ∧ p l[i] = true ∧
      ∀ j (hj : j < i), p (l[j]'(by omega)) = false) := by
  cases hf : l.findIdx? p with
  | none => exact .inl ⟨rfl, by simpa using hf⟩
  | some i =>
    rw [List.findIdx?_eq_some_iff_getElem] at hf
    obtain ⟨h, hp, hj⟩ := hf
    exact .inr ⟨i, h, rfl, hp, fun j hji => by simpa using hj j hji⟩

/-- A first position that satisfies the test is the one found. -/
theorem findIdx_eq_some {α : Type} {p : α → Bool} {l : List α} {i : Nat} (h : i < l.length) (hp : p l[i] = true)
    (hj : ∀ j (hj : j < i), p (l[j]'(by omega)) = false) : l.findIdx? p = some i := by
  rw [List.findIdx?_eq_some_iff_getElem]
  exact ⟨h, hp, fun j hji => by simp [hj j hji]⟩

theorem checkModuli_ok {ms : List Nat} (h : ∀ m ∈ ms, m ≠ 0) : checkModuli ms = .ok () := by
  rcases findIdx_cases (fun m => m == 0) ms with ⟨h1, _⟩ | ⟨i, hi, _, h2, _⟩
  · simp [checkModuli, h1]
  · exact absurd (by simpa using h2) (h _ (List.getElem_mem hi))

theorem checkModuli_error {ms : List Nat} {i : Nat} (h : i < ms.length) (h0 : ms[i] = 0)
    (hj : ∀ j (hj : j < i), ms[j]'(by omega) ≠ 0) : checkModuli ms = .error ⟨.modulus, i, false⟩ := by
  have := findIdx_eq_some (p := fun m => m == 0) h (by simpa using h0) (fun j hji => by simpa using hj j hji)
  simp [checkModuli, this]

theorem checkModuli_cases (ms : List Nat) :
    (checkModuli ms = .ok () ∧ ∀ m ∈ ms, m ≠ 0) ∨
    (∃ (i : Nat) (h : i < ms.length), checkModuli ms = .error ⟨.modulus, i, false⟩ ∧ ms[i] = 0) := by
  rcases findIdx_cases (fun m => m == 0) ms with ⟨h1, h2⟩ | ⟨i, hi, h1, h2, _⟩
  · exact .inl ⟨by simp [checkModuli, h1], fun m hm => by simpa using h2 m hm⟩
  · exact .inr ⟨i, hi, by simp [checkModuli, h1], by simpa using h2⟩

theorem checkDigits_ok {ds ms : List Nat} (inY : Bool) (h : DigitsBelow ds ms) : checkDigits ds ms inY = .ok () := by
  rcases findIdx_cases (fun p : Nat × Nat => decide (p.2 ≤ p.1)) (ds.zip ms) with ⟨h1, _⟩ | ⟨i, hi, _, h2, _⟩
  · simp [checkDigits, h1]
  · exact absurd (h _ (List.getElem_mem hi)) (by simpa using h2)

theorem checkDigits_error {ds ms : List Nat} (inY : Bool) {i : Nat} (hd : i < ds.length) (hm : i < ms.length)
    (hi : ms[i] ≤ ds[i]) (hj : ∀ j (hj : j < i), ds[j]'(by omega) < ms[j]'(by omega)) :
    checkDigits ds ms inY = .error ⟨.digit, i, inY⟩ := by
  have := findIdx_eq_some (p := fun p : Nat × Nat => decide (p.2 ≤ p.1)) (l := ds.zip ms) (i := i)
    (by simp; omega) (by simpa using hi) (fun j hji => by simpa using hj j hji)
  simp [checkDigits, this]

theorem checkDigits_cases (ds ms : List Nat) (inY : Bool) :
    (checkDigits ds ms inY = .ok () ∧ DigitsBelow ds ms) ∨
    (∃ i, i < min ds.length ms.length ∧ checkDigits ds ms inY = .error ⟨.digit, i, inY⟩) := by
  rcases findIdx_cases (fun p : Nat × Nat => decide (p.2 ≤ p.1)) (ds.zip ms) with ⟨h1, h2⟩ | ⟨i, hi, h1, _, _⟩
  · exact .inl ⟨by simp [checkDigits, h1], fun p hp => by simpa using h2 p hp⟩
  · exact .inr ⟨i, by simpa using hi, by simp [checkDigits, h1]⟩

theorem checkBase_ok {q : Nat} (h : q ≠ 0) : checkBase q = .ok () := by simp [checkBase, h]

@[simp] theorem checkBase_zero : checkBase 0 = .error ⟨.modulus, 0, false⟩ := rfl

theorem checkBase_cases (q : Nat) :
    (checkBase q = .ok () ∧ q ≠ 0) ∨ (checkBase q = .error ⟨.modulus, 0, false⟩ ∧ q = 0) := by
  by_cases h : q = 0 <;> simp [checkBase, h]

/-- The modulus sequence of a mixed-radix command has its length (42_mixed_radix.md R170). -/
theorem modulusSequence_length (s : State) (u : Bool) {k : Nat} (h : k ≤ 128) : (modulusSequence s u k).length = k := by
  cases u <;> simp [modulusSequence, h]

theorem mseq_ok {s : State} {u : Bool} {k : Nat} (h : ModuliNonzero s u k) : mseq s u k = .ok (modulusSequence s u k) := by
  cases u with
  | true => simp [mseq, checkBase_ok (q := s.qbase.toNat) (by simpa [ModuliNonzero] using h), Except.map]
  | false =>
    have : checkModuli (modulusSequence s false k) = .ok () := checkModuli_ok (by simpa [ModuliNonzero, modulusSequence] using h)
    simp [mseq, this, Except.map]

/-- All that `MSEQ` can answer (42_mixed_radix.md R170). -/
theorem mseq_cases (s : State) (u : Bool) (k : Nat) :
    (mseq s u k = .ok (modulusSequence s u k) ∧ ModuliNonzero s u k) ∨
    (∃ i, i < 128 ∧ mseq s u k = .error ⟨.modulus, i, false⟩) := by
  cases u with
  | true =>
    rcases checkBase_cases s.qbase.toNat with ⟨h1, h2⟩ | ⟨h1, _⟩
    · exact .inl ⟨by simp [mseq, h1, Except.map], by simpa [ModuliNonzero] using h2⟩
    · exact .inr ⟨0, by decide, by simp [mseq, h1, Except.map]⟩
  | false =>
    rcases checkModuli_cases (modulusSequence s false k) with ⟨h1, h2⟩ | ⟨i, hi, h1, _⟩
    · exact .inl ⟨by simp [mseq, h1, Except.map], by simpa [ModuliNonzero, modulusSequence] using h2⟩
    · exact .inr ⟨i, by simp [modulusSequence] at hi; omega, by simp [mseq, h1, Except.map]⟩

/-- Moduli in use that are not 0 make a sequence without 0. -/
theorem modulusSequence_ne_zero {s : State} {u : Bool} {k : Nat} (h : ModuliNonzero s u k) :
    ∀ m ∈ modulusSequence s u k, m ≠ 0 := by
  cases u with
  | true =>
    intro m hm
    simp only [modulusSequence, if_true, List.mem_replicate] at hm
    simpa [ModuliNonzero, hm.2] using h
  | false => simpa [ModuliNonzero, modulusSequence] using h

end Sys2Proof.Machine
end

