-- ==== Sys2Proof/Laws/Commands.lean ====
section
/-! SUPPORT. All that the body of each command can answer: a legal failure, or its result together with the conditions under
which it was computed. Callers cite these and never unfold a plan. -/

namespace Sys2Proof.Machine

/-- The failures a body can raise (60_exceptions.md R242, R243): never success, `E_CARRY` or a reserved code; a position
below 128, and only with a code that names one; buffer `Y` only with `E_DIGIT`. -/
abbrev Raise.Legal (r : Raise) : Prop :=
  (r.code = .length ∧ r.idx = 0 ∧ r.inY = false) ∨ (r.code = .modulus ∧ r.inY = false) ∨ r.code = .digit ∨
    (r.code = .noInv ∧ r.inY = false) ∨ (r.code = .overflow ∧ r.idx = 0 ∧ r.inY = false)

/-! ### The shared arithmetic -/

@[simp] theorem euclidAt_zero (a m : Nat) : euclidAt a m 0 = ⟨a, m, 0, 1⟩ := rfl

@[simp] theorem euclidAt_succ_s (a m n : Nat) : (euclidAt a m (n + 1)).s = (euclidAt a m n).t := rfl

@[simp] theorem euclidAt_succ_t (a m n : Nat) :
    (euclidAt a m (n + 1)).t = (euclidAt a m n).s % (euclidAt a m n).t := rfl

@[simp] theorem euclidAt_succ_x0 (a m n : Nat) : (euclidAt a m (n + 1)).x0 =
    (euclidAt a m n).x1 - ((euclidAt a m n).s / (euclidAt a m n).t : Nat) * (euclidAt a m n).x0 := rfl

@[simp] theorem euclidAt_succ_x1 (a m n : Nat) : (euclidAt a m (n + 1)).x1 = (euclidAt a m n).x0 := rfl

/-- All the ways `INV` can fail (41_modular_inverse.md R150). -/
theorem inv_error_cases {a m : Nat} {e : ErrCode} (h : inv a m = .error e) : (e = .modulus ∧ m = 0) ∨ (e = .noInv ∧ 2 ≤ m) := by
  unfold inv at h
  split_ifs at h with h0 h1
  · exact .inl ⟨by simpa using h.symm, h0⟩
  · split at h
    · exact .inr ⟨by simpa using h.symm, by omega⟩
    · cases h

/-- The natural length never exceeds the number of positions (42_mixed_radix.md R172). -/
theorem decomp_length_le {ms d : List Nat} : ∀ {x : Nat}, decomp x ms = some d → d.length ≤ ms.length := by
  induction ms generalizing d with
  | nil => intro x h; unfold decomp at h; split_ifs at h; simp_all
  | cons m ms ih =>
    intro x h
    unfold decomp at h
    split_ifs at h
    · obtain ⟨d', h', rfl⟩ := Option.map_eq_some_iff.mp h
      simpa using ih h'
    · simp only [Option.some.injEq] at h
      simp [← h]

@[simp] theorem carryDigit_lt {q t : Nat} (h : t < q) : carryDigit q t = (t, false) := by simp [carryDigit, Nat.not_le.mpr h]

@[simp] theorem carryDigit_ge {q t : Nat} (h : q ≤ t) : carryDigit q t = (t - q, true) := by simp [carryDigit, h]

theorem ripple_length (q : Nat) (c : Bool) (ts : List Nat) : (ripple q c ts).1.length = ts.length := by
  induction ts generalizing c with
  | nil => cases c <;> rfl
  | cons t ts ih => cases c <;> simp [ripple, ih]

/-- The adder leaves as many digits as the vector added into has (43_base_q_adder.md R202). -/
theorem carryAdd_length (q : Nat) (c : Bool) (ts us : List Nat) : (carryAdd q c ts us).1.length = ts.length := by
  induction ts generalizing c us with
  | nil => cases us <;> simp [carryAdd, ripple_length]
  | cons t ts ih => cases us <;> simp [carryAdd, ripple_length, ih]

/-- The positions without an inverse are reported below the number of moduli (44_crt.md R224). -/
theorem crtInverses_cases (M : Nat) (ps : List Nat) : ∀ i : Nat,
    (∃ ws, crtInverses M i ps = .ok ws ∧ ws.length = ps.length) ∨
    (∃ j, i ≤ j ∧ j < i + ps.length ∧ crtInverses M i ps = .error ⟨.noInv, j, false⟩) := by
  induction ps with
  | nil => exact fun i => .inl ⟨[], rfl, rfl⟩
  | cons p ps ih =>
    intro i
    unfold crtInverses
    cases inv (M / p) p with
    | error e => exact .inr ⟨i, le_refl i, by simp, rfl⟩
    | ok w =>
      rcases ih (i + 1) with ⟨ws, h, hl⟩ | ⟨j, h1, h2, h⟩
      · exact .inl ⟨w :: ws, by simp [h, Except.map], by simp [hl]⟩
      · exact .inr ⟨j, by omega, by simp only [List.length_cons]; omega, by simp [h, Except.map]⟩

/-! ### The bodies -/

theorem modinvPlan_cases (s : State) :
    (∃ r, inv s.opa.toNat s.opm.toNat = .ok r ∧ modinvPlan s = .ok r) ∨
    (∃ r, modinvPlan s = .error r ∧ r.Legal ∧ r.idx = 0) := by
  unfold modinvPlan
  cases h : inv s.opa.toNat s.opm.toNat with
  | ok r => exact .inl ⟨r, rfl, rfl⟩
  | error e => rcases inv_error_cases h with ⟨rfl, _⟩ | ⟨rfl, _⟩ <;> exact .inr ⟨_, rfl, by simp [Raise.Legal], rfl⟩

theorem crtEncPlan_cases (s : State) (k : Nat) :
    (crtEncPlan s k = .ok ((digits s.mod k).map fun p => s.val.toNat % p) ∧ k ≤ 128 ∧ ∀ m ∈ digits s.mod k, m ≠ 0) ∨
    (∃ r, crtEncPlan s k = .error r ∧ r.Legal ∧ r.idx < 128) := by
  by_cases hk : k ≤ 128
  · rcases checkModuli_cases (digits s.mod k) with ⟨h1, h2⟩ | ⟨i, hi, h1, _⟩
    · exact .inl ⟨by simp [crtEncPlan, hk, h1, bind, Except.bind], hk, h2⟩
    · exact .inr ⟨⟨.modulus, i, false⟩, by simp [crtEncPlan, hk, h1, bind, Except.bind], by simp [Raise.Legal], by simp at hi ⊢; omega⟩
  · exact .inr ⟨⟨.length, 0, false⟩, by simp [crtEncPlan, hk, bind, Except.bind], by simp [Raise.Legal], by simp⟩

theorem crtDecPlan_cases (s : State) (k : Nat) :
    (∃ w, crtDecPlan s k = .ok (crtSum (product (digits s.mod k)) 0 (digits s.x k) w (digits s.mod k)) ∧
      crtInverses (product (digits s.mod k)) 0 (digits s.mod k) = .ok w ∧ k ≤ 128 ∧ (∀ m ∈ digits s.mod k, m ≠ 0) ∧
      DigitsBelow (digits s.x k) (digits s.mod k) ∧ product (digits s.mod k) < 2 ^ 128) ∨
    (∃ r, crtDecPlan s k = .error r ∧ r.Legal ∧ r.idx < 128) := by
  by_cases hk : k ≤ 128
  · rcases checkModuli_cases (digits s.mod k) with ⟨h1, h1'⟩ | ⟨i, hi, h1, _⟩
    · rcases checkDigits_cases (digits s.x k) (digits s.mod k) false with ⟨h2, h2'⟩ | ⟨i, hi, h2⟩
      · by_cases h3 : 2 ^ 128 ≤ product (digits s.mod k)
        · exact .inr ⟨⟨.overflow, 0, false⟩, by simp [crtDecPlan, hk, h1, h2, checkProduct, h3, -Nat.reducePow, bind, Except.bind], by simp [Raise.Legal], by simp⟩
        · rcases crtInverses_cases (product (digits s.mod k)) (digits s.mod k) 0 with ⟨w, h4, _⟩ | ⟨j, _, hj, h4⟩
          · exact .inl ⟨w, by simp [crtDecPlan, hk, h1, h2, checkProduct, h3, -Nat.reducePow, h4, bind, Except.bind], h4, hk, h1', h2', by omega⟩
          · exact .inr ⟨⟨.noInv, j, false⟩, by simp [crtDecPlan, hk, h1, h2, checkProduct, h3, -Nat.reducePow, h4, bind, Except.bind],
              by simp [Raise.Legal], by simp at hj ⊢; omega⟩
      · exact .inr ⟨⟨.digit, i, false⟩, by simp [crtDecPlan, hk, h1, h2, bind, Except.bind], by simp [Raise.Legal], by simp at hi ⊢; omega⟩
    · exact .inr ⟨⟨.modulus, i, false⟩, by simp [crtDecPlan, hk, h1, bind, Except.bind], by simp [Raise.Legal], by simp at hi ⊢; omega⟩
  · exact .inr ⟨⟨.length, 0, false⟩, by simp [crtDecPlan, hk, bind, Except.bind], by simp [Raise.Legal], by simp⟩

theorem decompPlan_cases (s : State) (u : Bool) (k : Nat) :
    (∃ d, decompPlan s u k = .ok d ∧ decomp s.val.toNat (modulusSequence s u k) = some d ∧ d.length ≤ k ∧ k ≤ 128 ∧
      ModuliNonzero s u k) ∨
    (∃ r, decompPlan s u k = .error r ∧ r.Legal ∧ r.idx < 128) := by
  by_cases hk : k ≤ 128
  · rcases mseq_cases s u k with ⟨h1, h1'⟩ | ⟨i, hi, h1⟩
    · cases h2 : decomp s.val.toNat (modulusSequence s u k) with
      | none => exact .inr ⟨⟨.overflow, 0, false⟩, by simp [decompPlan, hk, h1, h2, bind, Except.bind], by simp [Raise.Legal], by simp⟩
      | some d =>
        have hl := decomp_length_le h2
        rw [modulusSequence_length s u hk] at hl
        exact .inl ⟨d, by simp [decompPlan, hk, h1, h2, bind, Except.bind], rfl, hl, hk, h1'⟩
    · exact .inr ⟨⟨.modulus, i, false⟩, by simp [decompPlan, hk, h1, bind, Except.bind], by simp [Raise.Legal], hi⟩
  · exact .inr ⟨⟨.length, 0, false⟩, by simp [decompPlan, hk, bind, Except.bind], by simp [Raise.Legal], by simp⟩

theorem recPlan_cases (s : State) (u : Bool) (n : Nat) :
    (recPlan s u n = .ok (horner (digits s.x n) (modulusSequence s u n)) ∧ n ≤ 128 ∧ ModuliNonzero s u n ∧
      DigitsBelow (digits s.x n) (modulusSequence s u n) ∧ horner (digits s.x n) (modulusSequence s u n) < 2 ^ 128) ∨
    (∃ r, recPlan s u n = .error r ∧ r.Legal ∧ r.idx < 128) := by
  by_cases hk : n ≤ 128
  · rcases mseq_cases s u n with ⟨h1, h1'⟩ | ⟨i, hi, h1⟩
    · rcases checkDigits_cases (digits s.x n) (modulusSequence s u n) false with ⟨h2, h2'⟩ | ⟨i, hi, h2⟩
      · by_cases h3 : 2 ^ 128 ≤ horner (digits s.x n) (modulusSequence s u n)
        · exact .inr ⟨⟨.overflow, 0, false⟩, by simp [recPlan, hk, h1, h2, h3, -Nat.reducePow, bind, Except.bind], by simp [Raise.Legal], by simp⟩
        · exact .inl ⟨by simp [recPlan, hk, h1, h2, h3, -Nat.reducePow, bind, Except.bind], hk, h1', h2', by omega⟩
      · exact .inr ⟨⟨.digit, i, false⟩, by simp [recPlan, hk, h1, h2, bind, Except.bind], by simp [Raise.Legal], by simp at hi ⊢; omega⟩
    · exact .inr ⟨⟨.modulus, i, false⟩, by simp [recPlan, hk, h1, bind, Except.bind], by simp [Raise.Legal], hi⟩
  · exact .inr ⟨⟨.length, 0, false⟩, by simp [recPlan, hk, bind, Except.bind], by simp [Raise.Legal], by simp⟩

/-- The checks on the base and the digits of the adder (43_base_q_adder.md R200, R205). -/
theorem checkAddends_cases (s : State) (nx ny : Nat) :
    (checkAddends s nx ny = .ok () ∧ s.qbase.toNat ≠ 0 ∧
      DigitsBelow (digits s.x nx) (List.replicate nx s.qbase.toNat) ∧
      DigitsBelow (digits s.y ny) (List.replicate ny s.qbase.toNat)) ∨
    (∃ r, checkAddends s nx ny = .error r ∧ r.Legal ∧ r.idx < 128) := by
  rcases checkBase_cases s.qbase.toNat with ⟨h1, h1'⟩ | ⟨h1, _⟩
  · rcases checkDigits_cases (digits s.x nx) (List.replicate nx s.qbase.toNat) false with ⟨h2, h2'⟩ | ⟨i, hi, h2⟩
    · rcases checkDigits_cases (digits s.y ny) (List.replicate ny s.qbase.toNat) true with ⟨h3, h3'⟩ | ⟨i, hi, h3⟩
      · exact .inl ⟨by simp [checkAddends, h1, h2, h3, -Nat.reducePow, bind, Except.bind], h1', h2', h3'⟩
      · exact .inr ⟨⟨.digit, i, true⟩, by simp [checkAddends, h1, h2, h3, -Nat.reducePow, bind, Except.bind], by simp [Raise.Legal], by simp at hi ⊢; omega⟩
    · exact .inr ⟨⟨.digit, i, false⟩, by simp [checkAddends, h1, h2, bind, Except.bind], by simp [Raise.Legal], by simp at hi ⊢; omega⟩
  · exact .inr ⟨⟨.modulus, 0, false⟩, by simp [checkAddends, h1, bind, Except.bind], by simp [Raise.Legal], by simp⟩

theorem addqPlan_cases (s : State) (nx ny : Nat) :
    (addqPlan s nx ny = .ok (carryAdd s.qbase.toNat false (digits s.x nx) (digits s.y ny)) ∧ ny ≤ nx ∧ nx ≤ 128 ∧
      s.qbase.toNat ≠ 0 ∧ DigitsBelow (digits s.x nx) (List.replicate nx s.qbase.toNat) ∧
      DigitsBelow (digits s.y ny) (List.replicate ny s.qbase.toNat)) ∨
    (∃ r, addqPlan s nx ny = .error r ∧ r.Legal ∧ r.idx < 128) := by
  by_cases hk : nx ≤ 128 ∧ ny ≤ 128
  · by_cases ho : nx < ny
    · exact .inr ⟨⟨.length, 0, false⟩, by simp [addqPlan, hk, checkOrder, ho, bind, Except.bind], by simp [Raise.Legal], by simp⟩
    · rcases checkAddends_cases s nx ny with ⟨h, h'⟩ | ⟨r, h, h'⟩
      · exact .inl ⟨by simp [addqPlan, hk, checkOrder, ho, h, bind, Except.bind], by omega, hk.1, h'⟩
      · exact .inr ⟨r, by simp [addqPlan, hk, checkOrder, ho, h, bind, Except.bind], h'⟩
  · exact .inr ⟨⟨.length, 0, false⟩, by simp [addqPlan, hk, bind, Except.bind], by simp [Raise.Legal], by simp⟩

theorem addqcPlan_cases (s : State) (nx ny : Nat) :
    (addqcPlan s nx ny = .ok (if nx < ny then carryAdd s.qbase.toNat false (digits s.y ny) (digits s.x nx)
        else carryAdd s.qbase.toNat false (digits s.x nx) (digits s.y ny)) ∧ nx ≤ 128 ∧ ny ≤ 128 ∧
      s.qbase.toNat ≠ 0 ∧ DigitsBelow (digits s.x nx) (List.replicate nx s.qbase.toNat) ∧
      DigitsBelow (digits s.y ny) (List.replicate ny s.qbase.toNat)) ∨
    (∃ r, addqcPlan s nx ny = .error r ∧ r.Legal ∧ r.idx < 128) := by
  by_cases hk : nx ≤ 128 ∧ ny ≤ 128
  · rcases checkAddends_cases s nx ny with ⟨h, h'⟩ | ⟨r, h, h'⟩
    · refine .inl ⟨?_, hk.1, hk.2, h'⟩
      by_cases ho : nx < ny <;> simp [addqcPlan, hk, ho, h, bind, Except.bind]
    · exact .inr ⟨r, by simp [addqcPlan, hk, h, bind, Except.bind], h'⟩
  · exact .inr ⟨⟨.length, 0, false⟩, by simp [addqcPlan, hk, bind, Except.bind], by simp [Raise.Legal], by simp⟩

end Sys2Proof.Machine
end

