-- ==== Sys2Proof/Laws/Exec.lean ====
section
/-! SUPPORT. All that a completion can do, said once for every command: the one lemma the later proofs about `exec` cite. -/

namespace Sys2Proof.Machine

/-- What a report of command `i` can say: a code it may raise, a position only with a code that names one, buffer `Y` only
with `E_DIGIT`, a length only with success or a carry (60_exceptions.md R240 to R245). -/
structure Report.Legal (i : Instr) (r : Report) : Prop where
  code : r.code ≠ .illegal ∧ r.code ≠ .unsupported ∧ r.code ≠ .nonFactor
  carry : r.code = .carry → ∃ nx ny, i = .addq nx ny ∨ i = .addqc nx ny
  idx_lt : r.idx < 128
  idx_code : r.idx ≠ 0 → r.code = .modulus ∨ r.code = .digit ∨ r.code = .noInv
  inY : r.inY = true → r.code = .digit
  rlen_le : r.rlen ≤ 128
  rlen_code : r.code ≠ .none → r.code ≠ .carry → r.rlen = 0

/-- What a completion of command `i` from `s` leaves in `VAL` and `X` under the report `r`. -/
structure ResultLegal (i : Instr) (s : State) (v : Value) (x : Buffer) (r : Report) : Prop where
  val_frame : writesVal i = false → v = s.val
  x_frame : agreeFrom (xWriteBound i) x s.x
  failed : r.code ≠ .none → r.code ≠ .carry → v = s.val ∧ x = s.x

/-- A failure a body can raise makes a legal completion of any command. -/
theorem raise_legal (i : Instr) (s : State) {r : Raise} (hr : r.Legal) (hi : r.idx < 128) :
    Report.Legal i ⟨r.code, r.idx, r.inY, 0⟩ ∧ ResultLegal i s s.val s.x ⟨r.code, r.idx, r.inY, 0⟩ := by
  refine ⟨?_, ⟨fun _ => rfl, fun _ _ _ => rfl, fun _ _ => ⟨rfl, rfl⟩⟩⟩
  rcases hr with ⟨h, h1, h2⟩ | ⟨h, h1⟩ | h | ⟨h, h1⟩ | ⟨h, h1, h2⟩ <;> constructor <;> simp_all

/-- A success with length `n` makes a legal report of any command. -/
theorem succeed_legal (i : Instr) {n : Nat} (h : n ≤ 128) : Report.Legal i ⟨.none, 0, false, n⟩ := by
  constructor <;> simp [h]

/-- Digits written below the command's bound make a legal result. -/
theorem digits_legal (i : Instr) (s : State) {ds : List Nat} {c : ErrCode} {n : Nat} (h : ds.length ≤ xWriteBound i)
    (_hb : xWriteBound i ≤ 128) (hc : c = .none ∨ c = .carry) :
    ResultLegal i s s.val (writeDigits s.x ds) ⟨c, 0, false, n⟩ :=
  ⟨fun _ => rfl, fun j hj hn => writeDigits_agreeFrom s.x ds (by omega) j hj (by omega),
    fun h1 h2 => (hc.elim h1 h2).elim⟩

/-- A value returned by a command that returns one makes a legal result. -/
theorem val_legal (i : Instr) (s : State) (v : Value) (h : writesVal i = true) :
    ResultLegal i s v s.x ⟨.none, 0, false, 0⟩ :=
  ⟨fun h' => by simp [h] at h', fun _ _ _ => rfl, fun h1 _ => (h1 rfl).elim⟩

/-- The two endings of an addition are legal (43_base_q_adder.md R203). -/
theorem storeSum_cases (s : State) (n : Nat) (sum : List Nat × Bool) :
    ∃ c, (c = .none ∨ c = .carry) ∧
      storeSum s n sum = { s with x := writeDigits s.x sum.1 }.complete ⟨c, 0, false, n⟩ := by
  unfold storeSum
  split
  · exact ⟨.carry, .inr rfl, rfl⟩
  · exact ⟨.none, .inl rfl, rfl⟩

/-- ALL THAT A COMPLETION CAN DO: it answers a next state, which is `s` with a legal report and at most `VAL` and `X`
changed (40_command.md R121, R126; 10_state.md R42). -/
theorem exec_cases (i : Instr) (s : State) : ∃ (v : Value) (x : Buffer) (r : Report),
    exec i s = .next ({ s with val := v, x := x }.complete r) ∧ r.Legal i ∧ ResultLegal i s v x r := by
  have failed : ∀ {r : Raise}, r.Legal → r.idx < 128 → ∃ (v : Value) (x : Buffer) (r' : Report),
      (.next (s.raise r) : Host.Outcome State Fault Refusal) = .next ({ s with val := v, x := x }.complete r') ∧
        r'.Legal i ∧ ResultLegal i s v x r' :=
    fun hr hi => ⟨s.val, s.x, _, rfl, raise_legal i s hr hi⟩
  have returned : ∀ v : Value, writesVal i = true → ∃ (v' : Value) (x : Buffer) (r : Report),
      (.next ({ s with val := v }.succeed 0) : Host.Outcome State Fault Refusal) =
        .next ({ s with val := v', x := x }.complete r) ∧ r.Legal i ∧ ResultLegal i s v' x r :=
    fun v h => ⟨v, s.x, _, rfl, succeed_legal i (by omega), val_legal i s v h⟩
  have added : ∀ (n : Nat) (sum : List Nat × Bool), (∃ nx ny, i = .addq nx ny ∨ i = .addqc nx ny) → n ≤ 128 →
      sum.1.length ≤ xWriteBound i → xWriteBound i ≤ 128 → ∃ (v : Value) (x : Buffer) (r : Report),
      (.next (storeSum s n sum) : Host.Outcome State Fault Refusal) = .next ({ s with val := v, x := x }.complete r) ∧
        r.Legal i ∧ ResultLegal i s v x r := by
    intro n sum hi hn hl hb
    obtain ⟨c, hc, h⟩ := storeSum_cases s n sum
    refine ⟨s.val, _, _, by rw [h], ?_, digits_legal i s hl hb hc⟩
    rcases hc with rfl | rfl <;> constructor <;> simp_all
  cases i with
  | nop => exact ⟨s.val, s.x, _, rfl, succeed_legal _ (by omega), ⟨fun _ => rfl, fun _ _ _ => rfl, fun h _ => (h rfl).elim⟩⟩
  | modinv =>
    simp only [exec, execModinv]
    rcases modinvPlan_cases s with ⟨r, _, h⟩ | ⟨r, h, h1, h2⟩ <;> rw [h]
    · exact returned _ rfl
    · exact failed h1 (by omega)
  | crtEnc k =>
    simp only [exec, execCrtEnc]
    rcases crtEncPlan_cases s k with ⟨h, h1, _⟩ | ⟨r, h, h1, h2⟩ <;> rw [h]
    · exact ⟨s.val, _, _, rfl, succeed_legal _ h1, digits_legal _ s (by simp [xWriteBound]) h1 (.inl rfl)⟩
    · exact failed h1 h2
  | crtDec k =>
    simp only [exec, execCrtDec]
    rcases crtDecPlan_cases s k with ⟨w, h, _⟩ | ⟨r, h, h1, h2⟩ <;> rw [h]
    · exact returned _ rfl
    · exact failed h1 h2
  | mrDec u k =>
    simp only [exec, execMrDec]
    rcases decompPlan_cases s u k with ⟨d, h, _, h1, h2, _⟩ | ⟨r, h, h1, h2⟩ <;> rw [h]
    · exact ⟨s.val, _, _, rfl, succeed_legal _ (by omega),
        digits_legal _ s (by simp [xWriteBound]; omega) h2 (.inl rfl)⟩
    · exact failed h1 h2
  | mrDecp u k =>
    simp only [exec, execMrDecp]
    rcases decompPlan_cases s u k with ⟨d, h, _, h1, h2, _⟩ | ⟨r, h, h1, h2⟩ <;> rw [h]
    · exact ⟨s.val, _, _, rfl, succeed_legal _ h2,
        digits_legal _ s (by simp [xWriteBound]; omega) h2 (.inl rfl)⟩
    · exact failed h1 h2
  | mrRec u n =>
    simp only [exec, execMrRec]
    rcases recPlan_cases s u n with ⟨h, _⟩ | ⟨r, h, h1, h2⟩ <;> rw [h]
    · exact returned _ rfl
    · exact failed h1 h2
  | addq nx ny =>
    simp only [exec, execAddq]
    rcases addqPlan_cases s nx ny with ⟨h, _, h1, _⟩ | ⟨r, h, h1, h2⟩ <;> rw [h]
    · exact added _ _ ⟨nx, ny, .inl rfl⟩ h1 (by rw [carryAdd_length]; simp [xWriteBound]) h1
    · exact failed h1 h2
  | addqc nx ny =>
    simp only [exec, execAddqc]
    rcases addqcPlan_cases s nx ny with ⟨h, h1, h2, _⟩ | ⟨r, h, h1, h2⟩ <;> rw [h]
    · exact added _ _ ⟨nx, ny, .inr rfl⟩ (by omega)
        (by split <;> rw [carryAdd_length] <;> simp [xWriteBound]) (by simp only [xWriteBound]; omega)
    · exact failed h1 h2

end Sys2Proof.Machine
end

