-- ==== Sys2Proof/Laws/PerInstr.lean ====
section
/-! SUPPORT. The family `ReservedFieldsZero`, said of each command as syntax: its encoding has 0 in both reserved fields
(30_encoding.md R90, R97). -/

namespace Sys2Proof.Laws.ReservedFieldsZero

open Sys2Proof

/-- The encoding of `i` has 0 in `RSV0` and `RSV1` (30_encoding.md R90). -/
def Statement (i : Instr) : Prop := rsv0Field (encode i) = 0 ∧ rsv1Field (encode i) = 0

/-- No field that `enc` places reaches a reserved one (30_encoding.md R99). -/
theorem of_enc (op : BitVec 5) (u : Bool) (nx ny : BitVec 8) :
    rsv0Field (enc op u nx ny) = 0 ∧ rsv1Field (enc op u nx ny) = 0 := by
  constructor
  · unfold rsv0Field enc
    ext i hi
    interval_cases i <;> simp
  · unfold rsv1Field enc
    ext i hi
    interval_cases i <;> simp

theorem nop : Statement .nop := of_enc _ _ _ _

theorem modinv : Statement .modinv := of_enc _ _ _ _

theorem crtEnc (k : Nat) : Statement (.crtEnc k) := of_enc _ _ _ _

theorem crtDec (k : Nat) : Statement (.crtDec k) := of_enc _ _ _ _

theorem mrDec (u : Bool) (k : Nat) : Statement (.mrDec u k) := of_enc _ _ _ _

theorem mrDecp (u : Bool) (k : Nat) : Statement (.mrDecp u k) := of_enc _ _ _ _

theorem mrRec (u : Bool) (n : Nat) : Statement (.mrRec u n) := of_enc _ _ _ _

theorem addq (nx ny : Nat) : Statement (.addq nx ny) := of_enc _ _ _ _

theorem addqc (nx ny : Nat) : Statement (.addqc nx ny) := of_enc _ _ _ _

end Sys2Proof.Laws.ReservedFieldsZero
end

