-- ==== Sys2Proof/Laws/Window.lean ====
section
/-! SUPPORT. The register window: which register an aligned offset names, that a word written into a 128-bit register reads
back and leaves the other words alone, and what a step does when the next turn is a host access. -/

namespace Sys2Proof.Machine

/-! ### 128-bit registers as words -/

/-- The bits of a word-wide mask. -/
theorem getLsbD_wordMask (n : Nat) : (0xFFFFFFFF#128).getLsbD n = decide (n < 32) := by
  by_cases h : n < 128
  · have : ∀ n : Fin 128, (0xFFFFFFFF#128).getLsbD n.val = decide (n.val < 32) := by decide
    exact this ⟨n, h⟩
  · rw [BitVec.getLsbD_of_ge _ _ (by omega)]; simp; omega

/-- Read after write of a word of a 128-bit register, and the other words' frame (20_memory.md R69). -/
theorem wordOf_setWordOf (v : Value) (j k : Fin 4) (w : Word) :
    wordOf (setWordOf v j w) k = if k = j then w else wordOf v k := by
  ext i hi
  have := j.isLt
  have := k.isLt
  have hw : w.getLsbD i = w[i] := BitVec.getLsbD_eq_getElem hi
  by_cases h : k = j
  · subst h
    have a : 32 * k.val + i < 128 := by omega
    have b : ¬ 32 * k.val + i < 32 * k.val := by omega
    have c : 32 * k.val + i - 32 * k.val = i := by omega
    simp only [setWordOf, wordOf, BitVec.getElem_extractLsb', BitVec.getLsbD_or, BitVec.getLsbD_and, BitVec.getLsbD_not,
      BitVec.getLsbD_shiftLeft, BitVec.getLsbD_setWidth, getLsbD_wordMask, a, b, c]
    simp [hi, show i < 128 by omega]
  · have hn : k.val ≠ j.val := fun e => h (Fin.ext e)
    have a : 32 * k.val + i < 128 := by omega
    simp only [setWordOf, wordOf, BitVec.getElem_extractLsb', BitVec.getLsbD_or, BitVec.getLsbD_and, BitVec.getLsbD_not,
      BitVec.getLsbD_shiftLeft, BitVec.getLsbD_setWidth, getLsbD_wordMask, if_neg h]
    rcases Nat.lt_or_gt_of_ne hn with hl | hl
    · have b : 32 * k.val + i < 32 * j.val := by omega
      simp [a, b]
    · have c : ¬ 32 * k.val + i - 32 * j.val < 32 := by omega
      have d : w.getLsbD (32 * k.val + i - 32 * j.val) = false := BitVec.getLsbD_of_ge _ _ (by omega)
      simp [a, c, d]

/-! ### The window's map (20_memory.md R63) -/

theorem regAt_val (j : Fin 4) : regAt (0x020 + 4 * j.val) = .val j := by fin_cases j <;> rfl

theorem regAt_opa (j : Fin 4) : regAt (0x030 + 4 * j.val) = .opa j := by fin_cases j <;> rfl

theorem regAt_opm (j : Fin 4) : regAt (0x040 + 4 * j.val) = .opm j := by fin_cases j <;> rfl

theorem regAt_mod (i : Fin 128) : regAt (0x400 + 4 * i.val) = .mod i := by
  have h : (0x400 + 4 * i.val - 0x400) / 4 = i.val := by omega
  have := i.isLt
  unfold regAt
  repeat rw [if_neg (by omega)]
  rw [if_pos (by omega), h]
  congr 1
  exact Fin.ext (Nat.mod_eq_of_lt i.isLt)

theorem regAt_x (i : Fin 128) : regAt (0x600 + 4 * i.val) = .x i := by
  have h : (0x600 + 4 * i.val - 0x600) / 4 = i.val := by omega
  have := i.isLt
  unfold regAt
  repeat rw [if_neg (by omega)]
  rw [if_pos (by omega), h]
  congr 1
  exact Fin.ext (Nat.mod_eq_of_lt i.isLt)

theorem regAt_y (i : Fin 128) : regAt (0x800 + 4 * i.val) = .y i := by
  have h : (0x800 + 4 * i.val - 0x800) / 4 = i.val := by omega
  have := i.isLt
  unfold regAt
  repeat rw [if_neg (by omega)]
  rw [if_pos (by omega), h]
  congr 1
  exact Fin.ext (Nat.mod_eq_of_lt i.isLt)

theorem regAt_reserved {off : Nat}
    (h : (0x018 ≤ off ∧ off < 0x020) ∨ (0x050 ≤ off ∧ off < 0x400) ∨ 0xA00 ≤ off) : regAt off = .reserved := by
  unfold regAt
  rcases h with h | h | h
  · repeat rw [if_neg (by omega)]
    rw [if_pos (by omega)]
  · repeat rw [if_neg (by omega)]
    rw [if_pos (by omega)]
  · repeat rw [if_neg (by omega)]

/-- Every aligned offset of the window, with the register it names (20_memory.md R63). -/
theorem regAt_cases {off : Nat} (h : off % 4 = 0) :
    (off = 0x000 ∧ regAt off = .id) ∨ (off = 0x004 ∧ regAt off = .param) ∨ (off = 0x008 ∧ regAt off = .ctrl) ∨
    (off = 0x00C ∧ regAt off = .status) ∨ (off = 0x010 ∧ regAt off = .cmd) ∨ (off = 0x014 ∧ regAt off = .qbase) ∨
    (∃ j : Fin 4, off = 0x020 + 4 * j.val ∧ regAt off = .val j) ∨
    (∃ j : Fin 4, off = 0x030 + 4 * j.val ∧ regAt off = .opa j) ∨
    (∃ j : Fin 4, off = 0x040 + 4 * j.val ∧ regAt off = .opm j) ∨
    (∃ i : Fin 128, off = 0x400 + 4 * i.val ∧ regAt off = .mod i) ∨
    (∃ i : Fin 128, off = 0x600 + 4 * i.val ∧ regAt off = .x i) ∨
    (∃ i : Fin 128, off = 0x800 + 4 * i.val ∧ regAt off = .y i) ∨
    (((0x018 ≤ off ∧ off < 0x020) ∨ (0x050 ≤ off ∧ off < 0x400) ∨ 0xA00 ≤ off) ∧ regAt off = .reserved) := by
  by_cases hr : (0x018 ≤ off ∧ off < 0x020) ∨ (0x050 ≤ off ∧ off < 0x400) ∨ 0xA00 ≤ off
  · simp only [regAt_reserved hr, and_true, hr, or_true]
  · by_cases h1 : off < 0x018
    · have : off = 0x000 ∨ off = 0x004 ∨ off = 0x008 ∨ off = 0x00C ∨ off = 0x010 ∨ off = 0x014 := by omega
      rcases this with rfl | rfl | rfl | rfl | rfl | rfl <;> simp [regAt]
    · by_cases h2 : off < 0x030
      · obtain ⟨j, rfl⟩ : ∃ j : Fin 4, off = 0x020 + 4 * j.val := ⟨⟨(off - 0x020) / 4, by omega⟩, by simp only; omega⟩
        exact .inr (.inr (.inr (.inr (.inr (.inr (.inl ⟨j, rfl, regAt_val j⟩))))))
      · by_cases h3 : off < 0x040
        · obtain ⟨j, rfl⟩ : ∃ j : Fin 4, off = 0x030 + 4 * j.val := ⟨⟨(off - 0x030) / 4, by omega⟩, by simp only; omega⟩
          exact .inr (.inr (.inr (.inr (.inr (.inr (.inr (.inl ⟨j, rfl, regAt_opa j⟩)))))))
        · by_cases h4 : off < 0x050
          · obtain ⟨j, rfl⟩ : ∃ j : Fin 4, off = 0x040 + 4 * j.val := ⟨⟨(off - 0x040) / 4, by omega⟩, by simp only; omega⟩
            exact .inr (.inr (.inr (.inr (.inr (.inr (.inr (.inr (.inl ⟨j, rfl, regAt_opm j⟩))))))))
          · by_cases h5 : off < 0x600
            · obtain ⟨i, rfl⟩ : ∃ i : Fin 128, off = 0x400 + 4 * i.val := ⟨⟨(off - 0x400) / 4, by omega⟩, by simp only; omega⟩
              exact .inr (.inr (.inr (.inr (.inr (.inr (.inr (.inr (.inr (.inl ⟨i, rfl, regAt_mod i⟩)))))))))
            · by_cases h6 : off < 0x800
              · obtain ⟨i, rfl⟩ : ∃ i : Fin 128, off = 0x600 + 4 * i.val :=
                  ⟨⟨(off - 0x600) / 4, by omega⟩, by simp only; omega⟩
                exact .inr (.inr (.inr (.inr (.inr (.inr (.inr (.inr (.inr (.inr (.inl ⟨i, rfl, regAt_x i⟩))))))))))
              · obtain ⟨i, rfl⟩ : ∃ i : Fin 128, off = 0x800 + 4 * i.val :=
                  ⟨⟨(off - 0x800) / 4, by omega⟩, by simp only; omega⟩
                exact .inr (.inr (.inr (.inr (.inr (.inr (.inr (.inr (.inr (.inr (.inr (.inl ⟨i, rfl, regAt_y i⟩)))))))))))

/-! ### Host turns -/

theorem checkAccess_ok {off : Nat} (h : off % 4 = 0) (h' : off < 0x1000) : checkAccess .word off = .ok () := by
  rw [checkAccess, if_pos ⟨rfl, h, h'⟩]

theorem checkAccess_error {size : AccessSize} {off : Nat} (h : ¬ (size = .word ∧ off % 4 = 0 ∧ off < 0x1000)) :
    checkAccess size off = .error .busError := by
  rw [checkAccess, if_neg (by simpa only [Config.windowSize] using h)]

theorem step_read {s : State} {rest : List Turn} {off : Nat} (h : off % 4 = 0) (h' : off < 0x1000) :
    step { s with agenda := .host (.read .word off) :: rest } = .next ({ s with agenda := rest }.busRead off) := by
  simp [step, State.takeTurn, State.hostAccess, checkAccess_ok h h']

theorem step_write {s : State} {rest : List Turn} {off : Nat} {v : Word} (h : off % 4 = 0) (h' : off < 0x1000) :
    step { s with agenda := .host (.write .word off v) :: rest } =
      .next { { s with agenda := rest }.busWrite off v with reply := some .written } := by
  simp [step, State.takeTurn, State.hostAccess, checkAccess_ok h h']

/-- All that a served read can do: it answers a word and draws at most one value; the word is the register's content, or,
for a data register of a busy block, some word with reserved bits 0 (20_memory.md R67). -/
theorem State.busRead_cases (s : State) (off : Nat) : ∃ w,
    s.busRead off = { s with reply := some (.data w), draws := (s.busRead off).draws } ∧
    (((s.busy && (regAt off).isData) = false ∧ w = s.peek (regAt off)) ∨
      ((s.busy && (regAt off).isData) = true ∧ ∃ v, w = v &&& (regAt off).usedBits)) := by
  unfold State.busRead
  split
  · rename_i h
    exact ⟨_, rfl, .inr ⟨h, _, rfl⟩⟩
  · rename_i h
    exact ⟨_, rfl, .inl ⟨by simpa using h, rfl⟩⟩

/-- All that a served write can do: it collides with a busy engine, or has the register's own effect (20_memory.md R66). -/
theorem State.busWrite_cases (s : State) (off : Nat) (v : Word) :
    ((s.busy && (regAt off).collides) = true ∧ s.busWrite off v = s.collide) ∨
    ((s.busy && (regAt off).collides) = false ∧ s.busWrite off v = s.writeReg (regAt off) v) := by
  unfold State.busWrite
  split
  · rename_i h
    exact .inl ⟨h, rfl⟩
  · rename_i h
    exact .inr ⟨by simpa using h, rfl⟩

theorem State.writeCtrl_reset (s : State) {v : Word} (h : v.getLsbD 1 = true) : s.writeCtrl v = s.hardReset := by
  rw [State.writeCtrl, if_pos h]

theorem State.writeCtrl_enable (s : State) {v : Word} (h : v.getLsbD 1 = false) :
    s.writeCtrl v = { s with ie := v.getLsbD 0 } := by
  rw [State.writeCtrl, if_neg (by rw [h]; decide)]

end Sys2Proof.Machine
end

