-- ==== Sys2Proof/Tests/Slice0.lean ====
section
/-! SUPPORT. The model's own tests. Expected values are the vectors of spec/95_test_vectors.md (named in each comment) or
written out by hand from the rule cited; never the model's own answer. After the tests: for each statement with
hypotheses a named witness that meets them. -/

namespace Sys2Proof.Tests

-- One kernel evaluation at a time: many at once need a thread each.
set_option Elab.async false

open Sys2Proof Sys2Proof.Machine

/-! ### Helpers -/

/-- The reset state with `QBASE` and the first entries of the three buffers set. -/
def buffers (q : Digit) (ms xs ys : List Nat) : State :=
  { State.reset with
    qbase := q, mod := writeDigits State.reset.mod ms, x := writeDigits State.reset.x xs
    y := writeDigits State.reset.y ys }

/-- The reset state with `VAL`, `QBASE` and the first moduli set. -/
def valued (v : Value) (q : Digit) (ms : List Nat) : State := { buffers q ms [] [] with val := v }

/-- The reset state with the operands of `MODINV` set and the vectors' sentinel in `VAL`. -/
def operands (a m : Value) : State := { State.reset with opa := a, opm := m, val := 0xDEAD#128 }

/-- The reset state with command `w` in flight. -/
def inFlight (w : Word) : State := State.reset.issue w

/-- The next state of an outcome; the reset state where there is none. -/
def nextOf (o : Host.Outcome State Fault Refusal) : State :=
  match o with
  | .next t => t
  | .fault _ => State.reset
  | .refused _ => State.reset

/-- One completion step of the word `w` issued in `s`: spec/95_test_vectors.md section 2.1. -/
def completed (s : State) (w : Word) : State := nextOf (step (s.issue w))

/-- One host access, the agenda holding nothing else. -/
def accessed (s : State) (a : Access) : State := nextOf (step { s with agenda := [.host a] })

/-- The command a word decodes to, or none. -/
def decoded (w : Word) : Option Instr :=
  match decode w with
  | .ok i => some i
  | .error _ => none

/-- The command a step leaves a machine with, for the tests of the host's interface. -/
def answersNext (o : Host.Outcome State Fault Refusal) : Bool :=
  match o with
  | .next _ => true
  | .fault _ => false
  | .refused _ => false

/-! ### Well-formedness: a length of 256 fits no field (30_encoding.md R90) -/

theorem test_refuse_crtEnc : (Instr.crtEnc 256).wellFormed = false := by decide

theorem test_refuse_crtDec : (Instr.crtDec 256).wellFormed = false := by decide

theorem test_refuse_mrDec : (Instr.mrDec true 256).wellFormed = false := by decide

theorem test_refuse_mrDecp : (Instr.mrDecp false 256).wellFormed = false := by decide

theorem test_refuse_mrRec : (Instr.mrRec true 256).wellFormed = false := by decide

theorem test_refuse_addq_nx : (Instr.addq 256 0).wellFormed = false := by decide

theorem test_refuse_addq_ny : (Instr.addq 0 256).wellFormed = false := by decide

theorem test_refuse_addqc_nx : (Instr.addqc 256 0).wellFormed = false := by decide

theorem test_refuse_addqc_ny : (Instr.addqc 0 256).wellFormed = false := by decide

/-- A length of 129 to 255 is well formed (30_encoding.md R98). -/
theorem test_accept_long_length : (Instr.crtEnc 255).wellFormed = true := by decide

/-! ### Decoding: words written out bit by bit from the fields of 30_encoding.md R90, as
`RSV1 _ NY _ NX _ RSV0 _ U _ OP` -/

theorem test_decode_nop : decoded 0b00000000_00000000_00000000_00_0_00000#32 = some .nop := by decide

theorem test_decode_modinv : decoded 0b00000000_00000000_00000000_00_0_00001#32 = some .modinv := by decide

theorem test_decode_crtEnc : decoded 0b00000000_00000000_00000011_00_0_00010#32 = some (.crtEnc 3) := by decide

theorem test_decode_crtDec : decoded 0b00000000_00000000_00011010_00_0_00011#32 = some (.crtDec 26) := by decide

theorem test_decode_mrDec : decoded 0b00000000_00000000_10000000_00_1_00100#32 = some (.mrDec true 128) := by decide

theorem test_decode_mrDecp : decoded 0b00000000_00000000_00000011_00_0_00101#32 = some (.mrDecp false 3) := by decide

theorem test_decode_mrRec : decoded 0b00000000_00000000_00000010_00_1_00110#32 = some (.mrRec true 2) := by decide

theorem test_decode_addq : decoded 0b00000000_00000001_00000010_00_0_00111#32 = some (.addq 2 1) := by decide

theorem test_decode_addqc : decoded 0b00000000_00000011_00000010_00_0_01000#32 = some (.addqc 2 3) := by decide

/-- The illegal words EN2 to EN11. -/
theorem test_illegal_words :
    [0x00000020#32, 0x00000021#32, 0x00000100#32, 0x01000001#32, 0x00000009#32, 0x0000001F#32, 0x00000022#32,
      0x00010002#32, 0x000000C0#32, 0x00010006#32].map decoded = List.replicate 10 none := rfl

/-- The host's interface to the decoder: the table's word of 32 bits. -/
theorem test_decodeTableWord : decodeTableWord 32 0x00010207 = some (.addq 2 1) := by decide

/-! ### One completion step each (spec/95_test_vectors.md section 2) -/

/-- EN1. -/
theorem test_nop :
    (completed (valued 5 0 []) 0x00000000#32).statusWord = 0x00000002#32 ∧
    (completed (valued 5 0 []) 0x00000000#32).val = 5 := by decide +kernel

/-- EN2: an illegal word. -/
theorem test_illegal :
    (completed (valued 5 0 []) 0x00000020#32).statusWord = 0x00000016#32 ∧
    (completed (valued 5 0 []) 0x00000020#32).val = 5 := by decide +kernel

/-- MI3. -/
theorem test_modinv :
    (completed (operands 10 17) 0x00000001#32).val = 12 ∧
    (completed (operands 10 17) 0x00000001#32).statusWord = 0x00000002#32 := by decide +kernel

/-- MI20. -/
theorem test_modinv_noinv :
    (completed (operands 4 6) 0x00000001#32).val = 0xDEAD#128 ∧
    (completed (operands 4 6) 0x00000001#32).statusWord = 0x00000056#32 := by decide +kernel

/-- CE2. -/
theorem test_crtEnc :
    digits (completed (valued 52 0 [3, 5, 7]) 0x00000302#32).x 4 = [1, 2, 3, 0] ∧
    (completed (valued 52 0 [3, 5, 7]) 0x00000302#32).statusWord = 0x00000302#32 := by decide +kernel

/-- CE10. -/
theorem test_crtEnc_zero :
    (completed (valued 4 0 [3, 0]) 0x00000202#32).statusWord = 0x00010036#32 := by decide +kernel

/-- CD2. -/
theorem test_crtDec :
    (completed (buffers 0 [3, 5, 7] [1, 2, 3] []) 0x00000303#32).val = 52 ∧
    (completed (buffers 0 [3, 5, 7] [1, 2, 3] []) 0x00000303#32).statusWord = 0x00000002#32 := by decide +kernel

/-- CD16: no inverse, at the lowest position. -/
theorem test_crtDec_noinv :
    (completed (buffers 0 [5, 4, 6] [0, 0, 0] []) 0x00000303#32).statusWord = 0x00010056#32 := by decide +kernel

/-- MD6: the natural length. -/
theorem test_mrDec :
    digits (completed (valued 1234 10 []) 0x00000624#32).x 6 = [4, 3, 2, 1, 0, 0] ∧
    (completed (valued 1234 10 []) 0x00000624#32).statusWord = 0x00000402#32 := by decide +kernel

/-- MD4. -/
theorem test_mrDec_overflow :
    (completed (valued 30 0 [2, 3, 5]) 0x00000304#32).statusWord = 0x00000066#32 := by decide +kernel

/-- MD7: the padded length. -/
theorem test_mrDecp :
    digits (completed (valued 1234 10 []) 0x00000625#32).x 6 = [4, 3, 2, 1, 0, 0] ∧
    (completed (valued 1234 10 []) 0x00000625#32).statusWord = 0x00000602#32 := by decide +kernel

/-- MD3: the value 0, padded. -/
theorem test_mrDecp_zero :
    (completed (valued 0 0 [2, 3, 5]) 0x00000305#32).statusWord = 0x00000302#32 := by decide +kernel

/-- MR1. -/
theorem test_mrRec :
    (completed (buffers 0 [2, 3, 5] [1, 0, 1] []) 0x00000306#32).val = 7 ∧
    (completed (buffers 0 [2, 3, 5] [1, 0, 1] []) 0x00000306#32).statusWord = 0x00000002#32 := by decide +kernel

/-- MR9: `2 · 65535^8` does not fit. -/
theorem test_mrRec_overflow :
    (completed (buffers 65535 [] [0, 0, 0, 0, 0, 0, 0, 0, 2] []) 0x00000926#32).statusWord = 0x00000066#32 := by decide +kernel

/-- AQ-O: the carry resolves and the top digit stays. -/
theorem test_addq :
    digits (completed (buffers 10 [] [5, 0, 0, 7] [5]) 0x00010407#32).x 4 = [0, 1, 0, 7] ∧
    (completed (buffers 10 [] [5, 0, 0, 7] [5]) 0x00010407#32).statusWord = 0x00000402#32 := by decide +kernel

/-- AQ-L: a digit sum of 17 bits, and a carry out. -/
theorem test_addq_carry :
    digits (completed (buffers 65535 [] [65534, 65534] [65534, 65534]) 0x00020207#32).x 2 = [65533, 65534] ∧
    (completed (buffers 65535 [] [65534, 65534] [65534, 65534]) 0x00020207#32).statusWord = 0x00000276#32 := by decide +kernel

/-- AQ-P: `Y` longer, with a carry that ripples. -/
theorem test_addqc :
    digits (completed (buffers 10 [] [9, 9, 9] [1, 2]) 0x00030208#32).x 3 = [0, 2, 1] ∧
    (completed (buffers 10 [] [9, 9, 9] [1, 2]) 0x00030208#32).statusWord = 0x00000302#32 := by decide +kernel

/-- AQ-K's operands in `ADDQC`: the digit at fault is in `Y` (43_base_q_adder.md R205). -/
theorem test_addqc_digit_in_y :
    (completed (buffers 5 [] [3, 4] [1, 7]) 0x00020208#32).statusWord = 0x01010046#32 := by decide +kernel

/-! ### The window and the interface -/

/-- A word of `VAL` lands at its quarter (10_state.md R36). -/
theorem test_write_val2 :
    (accessed State.reset (.write .word 0x028 0x12345678#32)).val = 0x00000000_12345678_00000000_00000000#128 := by
  decide +kernel

/-- The last entry of `Y`, its upper half ignored (10_state.md R41, 20_memory.md R64). -/
theorem test_write_y127 :
    (accessed State.reset (.write .word 0x9FC 0xABCD1234#32)).y[127] = 0x1234#16 := by decide +kernel

/-- A word that is issued through the host's interface runs as the next step. -/
theorem test_withFetchWord :
    step (State.reset.withFetchWord 32 0x00000000) = .next { State.reset with done := true } := rfl

/-! ### Witnesses: for each statement with hypotheses, a state and operands that meet all of them -/

theorem witness_DecodeOfEncode : (Instr.addqc 255 255).wellFormed = true := by decide

theorem witness_EncodeOfDecode : decode 0x00FFFF08#32 = .ok (.addqc 255 255) := by rfl

theorem witness_EngineStepRunsDecodedCommand :
    ((inFlight 0x00000302#32).busy = true ∧ (Instr.crtEnc 3).wellFormed = true ∧
      decode (inFlight 0x00000302#32).cmd = .ok (.crtEnc 3)) ∧ State.reset.busy = false := by
  exact ⟨⟨rfl, rfl, rfl⟩, rfl⟩

theorem witness_EveryCommandCompletes : (inFlight 0xFFFFFFFF#32).busy = true := rfl

/-- A busy block with an ignored operand write and a read before the engine's turn, and none of them a reset. -/
theorem witness_CompletionIsEventuallyTaken :
    (inFlight 0x00000001#32).busy = true ∧
    ∀ turn ∈ [Turn.host (.write .word 0x030 0x00000003#32), .host (.read .word 0x00C), .engine], turn.abandons = false := by
  decide

/-- A step that leaves the command in flight: a read of `STATUS`. -/
theorem witness_StepKeepsInFlightCommand :
    (inFlight 0x00000001#32).busy = true ∧ (Access.read .word 0x00C).isSoftReset = false ∧
    answersNext (step { inFlight 0x00000001#32 with agenda := [.host (.read .word 0x00C)] }) = true ∧
    (accessed (inFlight 0x00000001#32) (.read .word 0x00C)).busy = true := by decide +kernel

theorem witness_StepKeepsLegalReport :
    (inFlight 0x00000000#32).Inv ∧ step (inFlight 0x00000000#32) = .next { State.reset with done := true } :=
  ⟨by decide +kernel, rfl⟩

theorem witness_IllegalWordCompletesWithError :
    (inFlight 0x0000001F#32).busy = true ∧ decode (inFlight 0x0000001F#32).cmd = .error .reservedOp := ⟨rfl, rfl⟩

theorem witness_ReservedCodesNeverRaised :
    answersNext (exec .nop State.reset) = true ∧ State.reset.errcode.toNat < 8 ∧ answersNext (step State.reset) = true := by
  decide +kernel

/-- Both words with bit 1 set, and the two values of `IE` with it clear; an access that is no soft reset. -/
theorem witness_SoftResetResetsTheBlock :
    (0x00000002#32).getLsbD 1 = true ∧ (0xFFFFFFFF#32).getLsbD 1 = true ∧ (0x00000000#32).getLsbD 1 = false ∧
    (0x00000001#32).getLsbD 1 = false ∧ (inFlight 0x00000001#32).busy = true ∧
    (Access.write .word 0x008 0x00000001#32).isSoftReset = false ∧
    (Access.write .word 0x010 0x00000002#32).isSoftReset = false := by decide

theorem witness_ResetSetsEveryRegister :
    step { inFlight 0x00000001#32 with agenda := [.reset] } = .next State.reset := rfl

theorem witness_IssueLatchesTheCommand : State.reset.busy = false ∧ (inFlight 0x00000001#32).busy = true := ⟨rfl, rfl⟩

/-- The first and last offset of each range of the colliding registers: only `COLL` is set. -/
theorem witness_BusyWritesCollide_colliding :
    ∀ off ∈ [0x010, 0x014, 0x020, 0x04C, 0x400, 0x9FC],
      off % 4 = 0 ∧ off < 0x1000 ∧ (off = 0x010 ∨ off = 0x014 ∨ (0x020 ≤ off ∧ off < 0x050) ∨ (0x400 ≤ off ∧ off < 0xA00)) ∧
      accessed (inFlight 0x00000001#32) (.write .word off 0x00000007#32) =
        { inFlight 0x00000001#32 with coll := true, reply := some .written } := by decide +kernel

/-- The other offsets at their boundaries: `CTRL` and `STATUS` act normally, the rest is ignored. -/
theorem witness_BusyWritesCollide_normal :
    (accessed (inFlight 0x00000001#32) (.write .word 0x008 0x00000001#32)).ie = true ∧
    (accessed (inFlight 0x00000001#32) (.write .word 0x008 0x00000003#32)).busy = false ∧
    (accessed { inFlight 0x00000001#32 with coll := true } (.write .word 0x00C 0x00000008#32)).coll = false ∧
    ∀ off ∈ [0x000, 0x004, 0x018, 0x01C, 0x050, 0x3FC, 0xA00, 0xFFC],
      off % 4 = 0 ∧ off < 0x1000 ∧
      (off = 0x000 ∨ off = 0x004 ∨ (0x018 ≤ off ∧ off < 0x020) ∨ (0x050 ≤ off ∧ off < 0x400) ∨ 0xA00 ≤ off) ∧
      accessed (inFlight 0x00000001#32) (.write .word off 0x00000007#32) =
        { inFlight 0x00000001#32 with reply := some .written } := by decide +kernel

/-- The first and last offset of each range that a read names, answered with data by an idle and by a busy block. -/
theorem witness_ReadsReturnContent :
    State.reset.busy = false ∧ (inFlight 0x00000001#32).busy = true ∧
    ∀ off ∈ [0x000, 0x004, 0x008, 0x00C, 0x010, 0x014, 0x020, 0x02C, 0x030, 0x03C, 0x040, 0x04C, 0x400, 0x5FC, 0x600, 0x7FC,
      0x800, 0x9FC, 0xFFC], off % 4 = 0 ∧ off < 0x1000 ∧ answersNext (step { State.reset with agenda := [.host (.read .word off)] }) = true ∧
        answersNext (step { inFlight 0x00000001#32 with agenda := [.host (.read .word off)] }) = true := by decide +kernel

/-- The first and last reserved offset of each range: read as 0, idle and busy. -/
theorem witness_ReservedReadsZeroIgnoresWrites :
    (∀ off ∈ [0x018, 0x01C, 0x050, 0x3FC, 0xA00, 0xFFC],
      off % 4 = 0 ∧ off < 0x1000 ∧ ((0x018 ≤ off ∧ off < 0x020) ∨ (0x050 ≤ off ∧ off < 0x400) ∨ 0xA00 ≤ off) ∧
      (accessed State.reset (.read .word off)).reply = some (.data 0) ∧
      (accessed (inFlight 0x00000001#32) (.read .word off)).reply = some (.data 0)) ∧
    (accessed State.reset (.read .word 0x004)).reply = some (.data 0x00100480#32) ∧
    (accessed { State.reset with ie := true } (.read .word 0x008)).reply = some (.data 0x00000001#32) ∧
    (accessed { State.reset with done := true } (.read .word 0x00C)).reply = some (.data 0x00000002#32) ∧
    (∀ off ∈ [0x014, 0x400, 0x9FC], (accessed State.reset (.read .word off)).reply = some (.data 0)) := by decide +kernel

theorem witness_UnalignedAccessIsBusError :
    (AccessSize.byte ≠ .word ∧ AccessSize.half ≠ .word ∧ 0x021 % 4 ≠ 0) ∧
    (accessed State.reset (.read .byte 0x020)).reply = some (.fault .busError) ∧
    (accessed State.reset (.write .word 0x022 0x00000001#32)).reply = some (.fault .busError) := by decide +kernel

/-- The last served offset and the first beyond the window. -/
theorem witness_BusErrorsAreExactlyTheBadAccesses :
    (0xFFC % 4 = 0 ∧ 0xFFC < 0x1000 ∧ ¬ (0x1000 < 0x1000)) ∧
    (accessed State.reset (.write .word 0xFFC 0x00000001#32)).reply = some .written ∧
    (accessed State.reset (.write .word 0x1000 0x00000001#32)).reply = some (.fault .busError) := by decide +kernel

theorem witness_InterruptFollowsCompletion :
    (inFlight 0x00000000#32).busy = true ∧ answersNext (step (inFlight 0x00000000#32)) = true ∧ State.reset.busy = false ∧
    (0x00000002#32).getLsbD 1 = true ∧ (0x00000001#32).getLsbD 1 = false ∧ (0x00000001#32).getLsbD 0 = true ∧
    (0x00000000#32).getLsbD 1 = false ∧ (0x00000000#32).getLsbD 0 = false ∧
    answersNext (step { State.reset with agenda := [.reset] }) = true ∧
    answersNext (step { State.reset with agenda := [.host (.write .word 0x008 2)] }) = true ∧
    answersNext (step { State.reset with agenda := [.host (.write .word 0x008 0)] }) = true ∧
    answersNext (step { State.reset with agenda := [.host (.write .word 0x010 0)] }) = true ∧
    answersNext (step { State.reset with agenda := [.host (.write .word 0x00C 2)] }) = true ∧
    answersNext (step { State.reset with agenda := [.host (.write .word 0x008 1)] }) = true ∧
    answersNext (step { State.reset with agenda := [.host (.read .word 0x00C)] }) = true := by decide +kernel

/-- The first and last data register of each range. -/
theorem witness_IdleWriteStoresItsWordOnly :
    State.reset.busy = false ∧ ∀ off ∈ [0x014, 0x020, 0x04C, 0x400, 0x9FC],
      off % 4 = 0 ∧ (off = 0x014 ∨ (0x020 ≤ off ∧ off < 0x050) ∨ (0x400 ≤ off ∧ off < 0xA00)) := by decide

theorem witness_InFlightOperandsAreFrozen :
    (inFlight 0x00000001#32).busy = true ∧
    ∀ a ∈ [Access.write .word 0x030 0x00000003#32, .read .word 0x020, .write .word 0x008 0x00000001#32],
      a.isSoftReset = false := by decide

theorem witness_NopReportsSuccess : (0x00000100#32).toNat % 32 = 0 ∧ 0x00000100#32 ≠ 0 ∧ decoded 0x00000100#32 = none := by
  decide

theorem witness_ModinvFindsTheInverse :
    (2 ≤ 2 ∧ Nat.gcd 1 2 = 1 ∧ 1 < 2 ∧ 1 * 1 % 2 = 1) ∧
    2 ≤ (operands 10 17).opm.toNat ∧ Nat.gcd (operands 10 17).opa.toNat (operands 10 17).opm.toNat = 1 := by decide

theorem witness_ModinvFailsExactlyWithoutInverse :
    2 ≤ (operands 0 2).opm.toNat ∧ Nat.gcd (operands 0 2).opa.toNat (operands 0 2).opm.toNat ≠ 1 := by decide

theorem witness_ModinvCornerCases :
    (operands 5 0).opm.toNat = 0 ∧ (operands 5 1).opm.toNat = 1 ∧
    (2 ≤ (operands 1 2).opm.toNat ∧ (operands 1 2).opa.toNat = 1) ∧
    (2 ≤ (operands 6 7).opm.toNat ∧ (operands 6 7).opa.toNat + 1 = (operands 6 7).opm.toNat) := by decide

/-- The trace of `inv(3, 7)` (41_modular_inverse.md R156): the loop's exit with `s = 1` after three iterations, no exit before
it, and a bound above it. -/
theorem witness_InverseLoopBoundNeverReached :
    (∀ k < 3, 1 < (euclidAt 3 7 k).s ∧ (euclidAt 3 7 k).t ≠ 0) ∧ (euclidAt 3 7 3).s = 1 ∧ 3 < 3 + 7 + 1 := by decide

/-- The first length that is too long. -/
theorem witness_LongLengthsFail :
    128 < 129 ∧ (completed State.reset 0x00008102#32).errcode = 2 ∧ (completed State.reset 0x00008107#32).errcode = 2 ∧
    (completed State.reset 0x00810008#32).errcode = 2 := by
  decide +kernel

/-- A zero at the first position, and at a later one after a nonzero modulus; `QBASE = 0` with length 0. -/
theorem witness_ZeroModulusFails :
    (128 ≤ 128 ∧ 0 < 128 ∧ State.reset.mod[0] = 0 ∧ ∀ j (h : j < 128), j < 0 → State.reset.mod[j] ≠ 0) ∧
    ((buffers 0 [3, 0] [] []).mod[1] = 0 ∧ ∀ j (h : j < 128), j < 1 → (buffers 0 [3, 0] [] []).mod[j] ≠ 0) ∧
    (0 ≤ 128 ∧ State.reset.qbase = 0) := by decide +kernel

/-- A digit equal to its modulus, after one in range (CD13). -/
theorem witness_DigitOutOfRangeFails :
    ((∀ m ∈ digits (buffers 3 [2, 3, 5] [1, 3, 1] []).mod 3, m ≠ 0) ∧
      (buffers 3 [2, 3, 5] [1, 3, 1] []).mod[1].toNat ≤ (buffers 3 [2, 3, 5] [1, 3, 1] []).x[1].toNat ∧
      (∀ j (h : j < 128), j < 1 →
        (buffers 3 [2, 3, 5] [1, 3, 1] []).x[j].toNat < (buffers 3 [2, 3, 5] [1, 3, 1] []).mod[j].toNat)) ∧
    ((buffers 3 [2, 3, 5] [1, 3, 1] []).qbase ≠ 0 ∧
      (buffers 3 [2, 3, 5] [1, 3, 1] []).qbase.toNat ≤ (buffers 3 [2, 3, 5] [1, 3, 1] []).x[1].toNat ∧
      (∀ j (h : j < 128), j < 1 →
        (buffers 3 [2, 3, 5] [1, 3, 1] []).x[j].toNat < (buffers 3 [2, 3, 5] [1, 3, 1] []).qbase.toNat)) := by
  decide +kernel

/-- Each failure in turn: length, order, base, a digit of `X` (AQ-J), a digit of `Y` (AQ-K). -/
theorem witness_AdderChecksInOrder :
    128 < 129 ∧ 1 < 2 ∧ State.reset.qbase = 0 ∧
    ((buffers 5 [] [3, 5] [1]).qbase ≠ 0 ∧ (buffers 5 [] [3, 5] [1]).qbase.toNat ≤ (buffers 5 [] [3, 5] [1]).x[1].toNat ∧
      (∀ j (h : j < 128), j < 1 → (buffers 5 [] [3, 5] [1]).x[j].toNat < (buffers 5 [] [3, 5] [1]).qbase.toNat)) ∧
    ((∀ j (h : j < 128), j < 2 → (buffers 5 [] [3, 4] [1, 7]).x[j].toNat < (buffers 5 [] [3, 4] [1, 7]).qbase.toNat) ∧
      (buffers 5 [] [3, 4] [1, 7]).qbase.toNat ≤ (buffers 5 [] [3, 4] [1, 7]).y[1].toNat ∧
      (∀ j (h : j < 128), j < 1 → (buffers 5 [] [3, 4] [1, 7]).y[j].toNat < (buffers 5 [] [3, 4] [1, 7]).qbase.toNat)) := by
  decide +kernel

/-- A success (CE2) and a failure (CE10). -/
theorem witness_CrtEncWritesResidues :
    (3 ≤ 128 ∧ ∀ m ∈ digits (valued 52 0 [3, 5, 7]).mod 3, m ≠ 0) ∧
    (nextOf (exec (.crtEnc 3) (valued 52 0 [3, 5, 7]))).errcode = 0 ∧
    (nextOf (exec (.crtEnc 2) (valued 4 0 [3, 0]))).errcode = 3 := by decide +kernel

theorem witness_CrtDecSolvesTheCongruences :
    (3 ≤ 128 ∧ (∀ m ∈ digits (buffers 0 [3, 5, 7] [1, 2, 3] []).mod 3, m ≠ 0) ∧
      DigitsBelow (digits (buffers 0 [3, 5, 7] [1, 2, 3] []).x 3) (digits (buffers 0 [3, 5, 7] [1, 2, 3] []).mod 3) ∧
      (digits (buffers 0 [3, 5, 7] [1, 2, 3] []).mod 3).prod < 2 ^ 128 ∧
      (digits (buffers 0 [3, 5, 7] [1, 2, 3] []).mod 3).Pairwise Nat.Coprime) ∧
    answersNext (exec (.crtDec 3) (buffers 0 [3, 5, 7] [1, 2, 3] [])) = true ∧
    (nextOf (exec (.crtDec 3) (buffers 0 [3, 5, 7] [1, 2, 3] []))).errcode = 0 := by decide +kernel

theorem witness_CrtDecFailsExactlyWithoutCoprimality :
    (3 ≤ 128 ∧ (∀ m ∈ digits (buffers 0 [5, 4, 6] [0, 0, 0] []).mod 3, m ≠ 0) ∧
      DigitsBelow (digits (buffers 0 [5, 4, 6] [0, 0, 0] []).x 3) (digits (buffers 0 [5, 4, 6] [0, 0, 0] []).mod 3) ∧
      (digits (buffers 0 [5, 4, 6] [0, 0, 0] []).mod 3).prod < 2 ^ 128 ∧
      ¬ (digits (buffers 0 [5, 4, 6] [0, 0, 0] []).mod 3).Pairwise Nat.Coprime) ∧
    (nextOf (exec (.crtDec 3) (buffers 0 [5, 4, 6] [0, 0, 0] []))).errcode = 5 := by decide +kernel

/-- `2^128` itself: eight moduli of `0x8000` and one of `0x100`. -/
theorem witness_CrtDecOverflows :
    9 ≤ 128 ∧
    (∀ m ∈ digits (buffers 0 [32768, 32768, 32768, 32768, 32768, 32768, 32768, 32768, 256] [] []).mod 9, m ≠ 0) ∧
    DigitsBelow (digits (buffers 0 [32768, 32768, 32768, 32768, 32768, 32768, 32768, 32768, 256] [] []).x 9)
      (digits (buffers 0 [32768, 32768, 32768, 32768, 32768, 32768, 32768, 32768, 256] [] []).mod 9) ∧
    (digits (buffers 0 [32768, 32768, 32768, 32768, 32768, 32768, 32768, 32768, 256] [] []).mod 9).prod = 2 ^ 128 := by
  decide +kernel

theorem witness_CrtRoundTripRestoresValue :
    3 ≤ 128 ∧ (∀ m ∈ digits (valued 104 0 [3, 5, 7]).mod 3, m ≠ 0) ∧
    (digits (valued 104 0 [3, 5, 7]).mod 3).Pairwise Nat.Coprime ∧ (digits (valued 104 0 [3, 5, 7]).mod 3).prod < 2 ^ 128 ∧
    (valued 104 0 [3, 5, 7]).val.toNat < (digits (valued 104 0 [3, 5, 7]).mod 3).prod := by decide +kernel

/-- The largest value that fits, the value 0, and the length 0. -/
theorem witness_DecomposeWritesTheDigits :
    (3 ≤ 128 ∧ ModuliNonzero (valued 29 0 [2, 3, 5]) false 3 ∧
      (valued 29 0 [2, 3, 5]).val.toNat < (modulusSequence (valued 29 0 [2, 3, 5]) false 3).prod ∧
      (valued 29 0 [2, 3, 5]).val ≠ 0) ∧
    (ModuliNonzero (valued 0 2 []) true 0 ∧ (valued 0 2 []).val = 0 ∧
      (valued 0 2 []).val.toNat < (modulusSequence (valued 0 2 []) true 0).prod) := by decide +kernel

/-- The smallest value that does not fit (MD4). -/
theorem witness_DecomposeOverflowsExactly :
    (∀ m ∈ [2, 3, 5], m ≠ 0) ∧ 3 ≤ 128 ∧ ModuliNonzero (valued 30 0 [2, 3, 5]) false 3 ∧
    (modulusSequence (valued 30 0 [2, 3, 5]) false 3).prod ≤ (valued 30 0 [2, 3, 5]).val.toNat := by decide +kernel

theorem witness_DecomposeVariantsDifferOnlyInLength :
    (valued 7 10 [2, 3, 5]).val = (State.complete (valued 7 10 [2, 3, 5]) ⟨.none, 0, false, 0⟩).val ∧
    (nextOf (exec (.mrDec false 3) (valued 7 10 [2, 3, 5]))).errcode = 0 := by decide +kernel

theorem witness_HornerIsTheDigitValue : [1, 0, 1].length = [2, 3, 5].length := rfl

/-- `65535^8 - 1` fits (MR4), `2 · 65535^8` does not (MR9). -/
theorem witness_ReconstructRebuildsTheValue :
    (ModuliNonzero (buffers 65535 [] [0, 0, 0, 0, 0, 0, 0, 0, 1] []) true 9 ∧
      DigitsBelow (digits (buffers 65535 [] [0, 0, 0, 0, 0, 0, 0, 0, 1] []).x 9) (List.replicate 9 65535) ∧
      digitValue (digits (buffers 65535 [] [0, 0, 0, 0, 0, 0, 0, 0, 1] []).x 9) (List.replicate 9 65535) < 2 ^ 128) ∧
    (ModuliNonzero (buffers 65535 [] [0, 0, 0, 0, 0, 0, 0, 0, 2] []) true 9 ∧
      DigitsBelow (digits (buffers 65535 [] [0, 0, 0, 0, 0, 0, 0, 0, 2] []).x 9) (List.replicate 9 65535) ∧
      2 ^ 128 ≤ digitValue (digits (buffers 65535 [] [0, 0, 0, 0, 0, 0, 0, 0, 2] []).x 9) (List.replicate 9 65535)) := by
  decide +kernel

theorem witness_MixedRadixRoundTrip :
    answersNext (exec (.mrDec true 6) (valued 1234 10 [])) = true ∧
    answersNext (exec (.mrDecp true 6) (valued 1234 10 [])) = true ∧
    (nextOf (exec (.mrDec true 6) (valued 1234 10 []))).errcode = 0 ∧
    4 = (nextOf (exec (.mrDec true 6) (valued 1234 10 []))).rlen.toNat := by decide +kernel

theorem witness_BitRoundTrip : (valued 0xFFFFFFFFFFFFFFFFFFFFFFFFFFFFFFFF#128 2 []).qbase = 2 := rfl

/-- AQ-A without a carry out, AQ-E with one. -/
theorem witness_AddqAddsModuloThePower :
    (1 ≤ 2 ∧ 2 ≤ 128 ∧ (buffers 5 [] [3, 0] [4]).qbase ≠ 0 ∧
      DigitsBelow (digits (buffers 5 [] [3, 0] [4]).x 2) (List.replicate 2 (buffers 5 [] [3, 0] [4]).qbase.toNat) ∧
      DigitsBelow (digits (buffers 5 [] [3, 0] [4]).y 1) (List.replicate 1 (buffers 5 [] [3, 0] [4]).qbase.toNat)) ∧
    (nextOf (exec (.addq 2 1) (buffers 5 [] [3, 0] [4]))).errcode = 0 ∧
    (nextOf (exec (.addq 3 1) (buffers 5 [] [4, 4, 4] [1]))).errcode = 7 := by decide +kernel

/-- AQ-P without a carry out, AQ-G with one; the exchanged operands of AQ-P. -/
theorem witness_AddqcAddsModuloThePower :
    (2 ≤ 128 ∧ 3 ≤ 128 ∧ (buffers 10 [] [1, 2] [9, 9, 9]).qbase ≠ 0 ∧
      DigitsBelow (digits (buffers 10 [] [1, 2] [9, 9, 9]).x 2)
        (List.replicate 2 (buffers 10 [] [1, 2] [9, 9, 9]).qbase.toNat) ∧
      DigitsBelow (digits (buffers 10 [] [1, 2] [9, 9, 9]).y 3)
        (List.replicate 3 (buffers 10 [] [1, 2] [9, 9, 9]).qbase.toNat)) ∧
    (nextOf (exec (.addqc 2 2) (buffers 10 [] [1, 2] [3, 4]))).errcode = 0 ∧
    (nextOf (exec (.addqc 1 3) (buffers 10 [] [1] [9, 9, 9]))).errcode = 7 ∧
    (digits (buffers 10 [] [9, 9, 9] [1, 2]).x 3 = digits (buffers 10 [] [1, 2] [9, 9, 9]).y 3 ∧
      digits (buffers 10 [] [9, 9, 9] [1, 2]).y 2 = digits (buffers 10 [] [1, 2] [9, 9, 9]).x 2) := by decide +kernel

theorem witness_CommandsWriteOnlyTheirRegisters :
    answersNext (exec .modinv (operands 10 17)) = true ∧ writesVal .nop = false := by decide +kernel

/-- Two states that differ in a register `NOP`'s completion and `MODINV`'s do not read. -/
theorem witness_CompletionDependsOnlyOnItsOperands :
    agreeOnReads .modinv (operands 10 17) { operands 10 17 with qbase := 9 } ∧
    answersNext (exec .modinv (operands 10 17)) = true ∧
    answersNext (exec .modinv { operands 10 17 with qbase := 9 }) = true ∧ writesVal .modinv = true ∧
    (nextOf (exec .modinv (operands 10 17))).errcode = 0 := by
  refine ⟨⟨rfl, rfl⟩, ?_⟩
  decide +kernel

theorem witness_FailedCommandsWriteNoData :
    (nextOf (exec .modinv (operands 4 6))).errcode = 5 ∧
    (nextOf (exec (.addq 1 1) (buffers 5 [] [3] [4]))).errcode = 7 := by decide +kernel

end Sys2Proof.Tests
end

/-! ## Served accesses and the word `STATUS` reads

What a served access does at a register that never collides, and each field of the `STATUS` word at its place
(20_memory.md R66, R67; 10_state.md R26). -/

namespace Sys2Proof.Machine

/-! ### Host turns at the registers that are always served -/

@[simp] theorem State.peek_agenda (s : State) (rest : List Turn) (r : Reg) :
    { s with agenda := rest }.peek r = s.peek r := by cases r <;> rfl

/-- A register that holds no data is read alike idle and busy, and the read draws nothing (20_memory.md R67). -/
theorem step_read_nonData (s : State) (rest : List Turn) {off : Nat} (h : off % 4 = 0) (h' : off < 0x1000)
    (hr : (regAt off).isData = false) :
    step { s with agenda := .host (.read .word off) :: rest } =
      .next { s with agenda := rest, reply := some (.data (s.peek (regAt off))) } := by
  rw [step_read h h']
  simp [State.busRead, hr]

/-- A write to a register that never collides has its own effect, idle and busy (20_memory.md R66). -/
theorem step_write_nonColliding (s : State) (rest : List Turn) (v : Word) {off : Nat} (h : off % 4 = 0)
    (h' : off < 0x1000) (hr : (regAt off).collides = false) :
    step { s with agenda := .host (.write .word off v) :: rest } =
      .next { { s with agenda := rest }.writeReg (regAt off) v with reply := some .written } := by
  rw [step_write h h']
  simp [State.busWrite, hr]

/-! ### Fields of a register word -/

/-- A placed field holds its bits from its place on, and 0 elsewhere. -/
theorem getLsbD_placeField {n : Nat} (v : BitVec n) (pos i : Nat) :
    (placeField v pos).getLsbD i = (decide (i < 32) && decide (pos ≤ i) && v.getLsbD (i - pos)) := by
  by_cases hi : i < 32
  · by_cases hp : pos ≤ i
    · simp [placeField, hi, hp]
    · simp [placeField, hp]
  · simp [placeField, hi]

/-- A placed field reads back at its place. -/
theorem extract_placeField_same {n : Nat} (v : BitVec n) {pos : Nat} (h : pos + n ≤ 32) :
    (placeField v pos).extractLsb' pos n = v := by
  ext i hi
  rw [BitVec.getElem_extractLsb', getLsbD_placeField]
  simp [show pos + i < 32 by omega, BitVec.getLsbD_eq_getElem hi]

/-- A placed field is 0 in every range of bits that it does not meet. -/
theorem extract_placeField_disjoint {n : Nat} (v : BitVec n) {pos a len : Nat} (h : a + len ≤ pos ∨ pos + n ≤ a) :
    (placeField v pos).extractLsb' a len = 0 := by
  ext i hi
  rw [BitVec.getElem_extractLsb', getLsbD_placeField]
  rcases h with h | h
  · simp [show ¬ pos ≤ a + i by omega]
  · simp [BitVec.getLsbD_of_ge v (a + i - pos) (by omega)]

/-- `getLsbD_placeField` in the form `simp` gives a bit of a word. -/
theorem getElem_placeField {n : Nat} (v : BitVec n) (pos : Nat) {i : Nat} (hi : i < 32) :
    (placeField v pos)[i] = (decide (pos ≤ i) && v.getLsbD (i - pos)) := by
  rw [← BitVec.getLsbD_eq_getElem hi, getLsbD_placeField]
  simp [hi]

/-- Each one-bit field of `STATUS` at its place (10_state.md R26). -/
theorem statusWord_bits (s : State) :
    s.statusWord.getLsbD 0 = s.busy ∧ s.statusWord.getLsbD 1 = s.done ∧ s.statusWord.getLsbD 2 = s.err ∧
      s.statusWord.getLsbD 3 = s.coll ∧ s.statusWord.getLsbD 24 = s.erry := by
  refine ⟨?_, ?_, ?_, ?_, ?_⟩ <;> simp [State.statusWord, getElem_placeField]

/-- Each wider field of `STATUS` at its place, and the reserved bits (10_state.md R26). -/
theorem statusWord_fields (s : State) :
    s.statusWord.extractLsb' 4 4 = s.errcode ∧ s.statusWord.extractLsb' 8 8 = s.rlen ∧
      s.statusWord.extractLsb' 16 8 = s.erridx ∧ s.statusWord.extractLsb' 25 7 = 0 := by
  refine ⟨?_, ?_, ?_, ?_⟩ <;>
    simp [State.statusWord, BitVec.extractLsb'_or, extract_placeField_same, extract_placeField_disjoint]

/-- `ERR` is set exactly by a nonzero code (10_state.md R29). -/
theorem err_iff (s : State) : s.err = true ↔ s.errcode ≠ 0 := by simp [State.err]

/-- Settles O22: the fields of `STATUS` one by one, and the read and the write of a register that never collides. -/
theorem statusFieldsAndClears : Obligations.StatusFieldsAndClears := by
  refine ⟨fun s => ?_, rfl, fun s rest => ⟨_, step_read_nonData s rest rfl (by decide) rfl, rfl⟩,
    fun s rest v => ⟨_, step_write_nonColliding s rest v rfl (by decide) rfl, rfl⟩⟩
  obtain ⟨hbusy, hdone, herr, hcoll, herry⟩ := statusWord_bits s
  obtain ⟨hcode, hrlen, hidx, hreserved⟩ := statusWord_fields s
  exact ⟨hbusy, hdone, by rw [herr, err_iff], hcoll, hcode, hrlen, hidx, herry, hreserved⟩

/-- Settles O52: `ID` and `PARAM` hold no data, never collide, and a write to them is the identity. -/
theorem constantRegistersIgnoreWrites : Obligations.ConstantRegistersIgnoreWrites :=
  ⟨fun s rest => ⟨step_read_nonData s rest rfl (by decide) rfl, step_read_nonData s rest rfl (by decide) rfl⟩,
    fun s rest v => ⟨step_write_nonColliding s rest v rfl (by decide) rfl,
      step_write_nonColliding s rest v rfl (by decide) rfl⟩,
    rfl, rfl⟩

end Sys2Proof.Machine

/-! ## The frame of a completion

What a command writes (10_state.md R42): read off the one lemma that says all that a completion can do. -/

namespace Sys2Proof.Machine

/-- Settles O49, from `exec_cases`: the answer is `s` with a report, `VAL` and `X` replaced, both within the command's
frame. -/
theorem commandsWriteOnlyTheirRegisters : Obligations.CommandsWriteOnlyTheirRegisters := by
  intro i s t h
  obtain ⟨v, x, r, hexec, -, hresult⟩ := exec_cases i s
  rw [hexec] at h
  cases h
  exact ⟨rfl, hresult.val_frame, hresult.x_frame⟩

end Sys2Proof.Machine

/-! ## The invariant of the status report

Each operation that a turn can end in keeps `State.Inv`; a step is one of them (10_state.md R31 to R34, 40_command.md
R120). The invariant reads `BUSY`, `DONE` and the report only, so where an operation writes none of these fields the
invariant after it is, by definition, the one before. -/

namespace Sys2Proof.Machine

/-! ### The operations -/

theorem inv_reset : State.reset.Inv := by decide

theorem inv_hardReset (s : State) : s.hardReset.Inv := inv_reset

theorem inv_issue (s : State) (w : Word) : (s.issue w).Inv := by
  simp [State.Inv, State.ReportLegal, State.IssueCleared]

/-- Acknowledging only clears `DONE` and `COLL`, so a cleared report stays cleared. -/
theorem inv_acknowledge {s : State} (v : Word) (hs : s.Inv) : (s.acknowledge v).Inv := by
  obtain ⟨hlegal, hcleared⟩ := hs
  refine ⟨hlegal, fun hbusy => ?_⟩
  obtain ⟨hdone, hrest⟩ := hcleared hbusy
  exact ⟨by simp [hdone], hrest⟩

/-- The codes a completion can report (60_exceptions.md R241). -/
theorem code_lt_of_raised {c : ErrCode} (h : c ≠ .unsupported ∧ c ≠ .nonFactor) : c.code.toNat < 8 := by
  cases c <;> simp_all [ErrCode.code]

theorem inv_complete {i : Instr} (s : State) {r : Report} (hr : r.Legal i) : (s.complete r).Inv := by
  have hidx : BitVec.ofNat 8 r.idx ≠ 0 → r.idx ≠ 0 := by rintro h h0; simp [h0] at h
  have hrlen : BitVec.ofNat 8 r.rlen ≠ 0 → r.rlen ≠ 0 := by rintro h h0; simp [h0] at h
  refine ⟨⟨code_lt_of_raised hr.code.2, ?_, ?_, fun h => ?_, fun h => ?_, fun h => ?_⟩, fun h => ?_⟩
  · have := hr.idx_lt
    simp only [State.complete_erridx, BitVec.toNat_ofNat]
    omega
  · have := hr.rlen_le
    simp only [State.complete_rlen, BitVec.toNat_ofNat]
    omega
  · rcases hr.idx_code (hidx h) with hc | hc | hc <;> simp [hc, ErrCode.code]
  · simp [hr.inY h, ErrCode.code]
  · have hc : r.code = .none ∨ r.code = .carry := by
      by_contra hc
      rw [not_or] at hc
      exact hrlen h (hr.rlen_code hc.1 hc.2)
    rcases hc with hc | hc <;> simp [hc, ErrCode.code]
  · simp at h

theorem inv_illegalCommand (s : State) : s.illegalCommand.Inv := by
  simp [State.Inv, State.ReportLegal, State.IssueCleared, ErrCode.code]

/-! ### The bus -/

theorem inv_writeCtrl {s : State} (v : Word) (hs : s.Inv) : (s.writeCtrl v).Inv := by
  unfold State.writeCtrl
  split
  · exact inv_hardReset s
  · exact hs

theorem inv_writeReg {s : State} (r : Reg) (v : Word) (hs : s.Inv) : (s.writeReg r v).Inv := by
  cases r with
  | ctrl => exact inv_writeCtrl v hs
  | status => exact inv_acknowledge v hs
  | cmd => exact inv_issue s v
  | id | param | reserved | qbase | val | opa | opm | mod | x | y => exact hs

theorem inv_busWrite {s : State} (off : Nat) (v : Word) (hs : s.Inv) : (s.busWrite off v).Inv := by
  rcases s.busWrite_cases off v with ⟨-, h⟩ | ⟨-, h⟩ <;> rw [h]
  · exact hs
  · exact inv_writeReg _ v hs

theorem inv_busRead {s : State} (off : Nat) (hs : s.Inv) : (s.busRead off).Inv := by
  obtain ⟨w, h, -⟩ := s.busRead_cases off
  rw [h]
  exact hs

/-- A host access keeps the invariant, whether it is served or refused. -/
theorem inv_hostAccess {s : State} (a : Access) (hs : s.Inv) : (s.hostAccess a).Inv := by
  cases a with
  | read size off =>
    simp only [State.hostAccess]
    split
    · exact inv_busRead off hs
    · exact hs
  | write size off v =>
    simp only [State.hostAccess]
    split
    · exact inv_busWrite off v hs
    · exact hs

/-! ### The turns -/

/-- Every completion leaves a legal report, from any state. -/
theorem inv_completion {s t : State} (h : s.completion = .next t) : t.Inv := by
  unfold State.completion at h
  split at h
  next i _ =>
    obtain ⟨v, x, r, hexec, hr, -⟩ := exec_cases i s
    rw [hexec] at h
    cases h
    exact inv_complete _ hr
  next =>
    cases h
    exact inv_illegalCommand s

theorem inv_engineTurn {s t : State} (hs : s.Inv) (h : s.engineTurn = .next t) : t.Inv := by
  unfold State.engineTurn at h
  split at h
  · exact inv_completion h
  · cases h
    exact hs

theorem inv_takeTurn {s t : State} (turn : Turn) (hs : s.Inv) (h : s.takeTurn turn = .next t) : t.Inv := by
  cases turn with
  | host a => cases h; exact inv_hostAccess a hs
  | engine => exact inv_engineTurn hs h
  | reset => cases h; exact inv_hardReset s

/-- Settles O10: a step is the next turn of the agenda or, with none left, the engine's. -/
theorem stepKeepsLegalReport : Obligations.StepKeepsLegalReport := by
  intro s t hs h
  unfold step at h
  split at h
  next => exact inv_engineTurn hs h
  next turn rest _ => exact inv_takeTurn (s := { s with agenda := rest }) turn hs h

end Sys2Proof.Machine

/-! ## A completion depends on its operands only

The body of each command is a function of what the command reads (10_state.md R42, column R), and equal bodies end in
equal results (40_command.md R128). -/

namespace Sys2Proof.Machine

/-! ### The bodies -/

theorem modinvPlan_congr {s s' : State} (ha : s.opa = s'.opa) (hm : s.opm = s'.opm) : modinvPlan s = modinvPlan s' := by
  rw [modinvPlan, ha, hm, modinvPlan]

theorem crtEncPlan_congr {s s' : State} {k : Nat} (hv : s.val = s'.val) (hm : agreeBelow k s.mod s'.mod) :
    crtEncPlan s k = crtEncPlan s' k := by
  simp only [crtEncPlan, hv, digits_congr hm]

theorem crtDecPlan_congr {s s' : State} {k : Nat} (hm : agreeBelow k s.mod s'.mod) (hx : agreeBelow k s.x s'.x) :
    crtDecPlan s k = crtDecPlan s' k := by
  simp only [crtDecPlan, digits_congr hm, digits_congr hx]

/-- The modulus sequence comes from `QBASE` alone or from `MOD` alone (30_encoding.md R93). -/
theorem mseq_congr {s s' : State} {u : Bool} {k : Nat}
    (h : if u then s.qbase = s'.qbase else agreeBelow k s.mod s'.mod) : mseq s u k = mseq s' u k := by
  cases u with
  | true =>
    have hq : s.qbase = s'.qbase := h
    simp only [mseq, modulusSequence, hq, if_true]
  | false =>
    have hm : agreeBelow k s.mod s'.mod := by simpa using h
    simp [mseq, modulusSequence, digits_congr hm]

theorem decompPlan_congr {s s' : State} {u : Bool} {k : Nat} (hv : s.val = s'.val)
    (hm : if u then s.qbase = s'.qbase else agreeBelow k s.mod s'.mod) : decompPlan s u k = decompPlan s' u k := by
  simp only [decompPlan, hv, mseq_congr hm]

theorem recPlan_congr {s s' : State} {u : Bool} {n : Nat} (hx : agreeBelow n s.x s'.x)
    (hm : if u then s.qbase = s'.qbase else agreeBelow n s.mod s'.mod) : recPlan s u n = recPlan s' u n := by
  simp only [recPlan, digits_congr hx, mseq_congr hm]

section Addends

variable {s s' : State} {nx ny : Nat} (hq : s.qbase = s'.qbase) (hx : agreeBelow nx s.x s'.x)
  (hy : agreeBelow ny s.y s'.y)

include hq hx hy

theorem addqPlan_congr : addqPlan s nx ny = addqPlan s' nx ny := by
  simp only [addqPlan, checkAddends, hq, digits_congr hx, digits_congr hy]

theorem addqcPlan_congr : addqcPlan s nx ny = addqcPlan s' nx ny := by
  simp only [addqcPlan, checkAddends, hq, digits_congr hx, digits_congr hy]

end Addends

/-! ### The ends of a command -/

/-- `t` and `t'` hold the same results of command `i`: the report, `VAL` where a success returns one, and the entries of
`X` below the command's bound where it writes digits. -/
def SameResult (i : Instr) (t t' : State) : Prop :=
  sameReport t t' ∧ (writesVal i = true → t.errcode = 0 → t.val = t'.val) ∧
    (t.errcode = 0 ∨ t.errcode = 7 → agreeBelow (xWriteBound i) t.x t'.x)

/-- A failure reports neither success nor a carry, so it promises nothing of `VAL` and `X`. -/
theorem sameResult_raise (i : Instr) (s s' : State) {r : Raise} (hr : r.Legal) :
    SameResult i (s.raise r) (s'.raise r) := by
  have hcode : r.code.code ≠ 0 ∧ r.code.code ≠ 7 := by
    rcases hr with ⟨h, -⟩ | ⟨h, -⟩ | h | ⟨h, -⟩ | ⟨h, -⟩ <;> simp [h, ErrCode.code]
  exact ⟨⟨rfl, rfl, rfl, rfl, rfl, rfl⟩, fun _ h => (hcode.1 h).elim, fun h => (h.elim hcode.1 hcode.2).elim⟩

theorem sameResult_val {i : Instr} (s s' : State) (v : Value) (n : Nat) (hx : xWriteBound i = 0) :
    SameResult i ({ s with val := v }.succeed n) ({ s' with val := v }.succeed n) :=
  ⟨⟨rfl, rfl, rfl, rfl, rfl, rfl⟩, fun _ _ => rfl, fun _ j _ hj => by omega⟩

/-- Digits written over any two buffers agree where they were written. -/
theorem writeDigits_agreeBelow (b b' : Buffer) {ds : List Nat} (hds : ds.length ≤ 128) :
    agreeBelow ds.length (writeDigits b ds) (writeDigits b' ds) := by
  intro j hj hlt
  rw [writeDigits_getElem b ds hds, writeDigits_getElem b' ds hds, dif_pos hlt, dif_pos hlt]

theorem sameResult_digits {i : Instr} (s s' : State) {ds : List Nat} (r : Report) (hv : writesVal i = false)
    (hx : xWriteBound i = ds.length) (hds : ds.length ≤ 128) :
    SameResult i ({ s with x := writeDigits s.x ds }.complete r) ({ s' with x := writeDigits s'.x ds }.complete r) := by
  refine ⟨⟨rfl, rfl, rfl, rfl, rfl, rfl⟩, fun h => by simp [hv] at h, fun _ => ?_⟩
  rw [hx]
  exact writeDigits_agreeBelow s.x s'.x hds

/-- The two endings of an addition differ in the code only (43_base_q_adder.md R203). -/
theorem storeSum_eq_complete (s : State) (n : Nat) (sum : List Nat × Bool) :
    storeSum s n sum =
      { s with x := writeDigits s.x sum.1 }.complete ⟨if sum.2 then .carry else .none, 0, false, n⟩ := by
  cases h : sum.2 <;> simp [storeSum, h]

theorem sameResult_storeSum {i : Instr} (s s' : State) {n : Nat} {sum : List Nat × Bool} (hv : writesVal i = false)
    (hx : xWriteBound i = sum.1.length) (hds : sum.1.length ≤ 128) :
    SameResult i (storeSum s n sum) (storeSum s' n sum) := by
  rw [storeSum_eq_complete, storeSum_eq_complete]
  exact sameResult_digits s s' _ hv hx hds

/-- The digits of a decomposition are stored over the whole length `k` (42_mixed_radix.md R171). -/
theorem sameResult_storePadded {i : Instr} (s s' : State) {k : Nat} {d : List Nat} (n : Nat) (hv : writesVal i = false)
    (hx : xWriteBound i = k) (hd : d.length ≤ k) (hk : k ≤ 128) :
    SameResult i ((storePadded s k d).succeed n) ((storePadded s' k d).succeed n) := by
  have hlen : (d ++ List.replicate (k - d.length) 0).length = k := by simp; omega
  exact sameResult_digits s s' _ hv (by rw [hx, hlen]) (by omega)

/-- `MR.DEC` and `MR.DECP`, which differ only in the length `len` they report (42_mixed_radix.md R176). -/
theorem sameResult_decomp {i : Instr} {s s' : State} {u : Bool} {k : Nat} (len : List Nat → Nat)
    (hi : writesVal i = false) (hx : xWriteBound i = k) (hv : s.val = s'.val)
    (hm : if u then s.qbase = s'.qbase else agreeBelow k s.mod s'.mod) :
    SameResult i (s.conclude (decompPlan s u k) fun s d => (storePadded s k d).succeed (len d))
      (s'.conclude (decompPlan s' u k) fun s d => (storePadded s k d).succeed (len d)) := by
  rw [← decompPlan_congr hv hm]
  rcases decompPlan_cases s u k with ⟨d, hp, -, hd, hk, -⟩ | ⟨r, hp, hr, -⟩ <;> rw [hp]
  · exact sameResult_storePadded s s' _ hi hx hd hk
  · exact sameResult_raise i s s' hr

/-! ### The commands -/

/-- Two completions of one command on operands that agree end in the same results. -/
theorem exec_sameResult (i : Instr) {s s' : State} (h : agreeOnReads i s s') :
    ∃ t t', exec i s = .next t ∧ exec i s' = .next t' ∧ SameResult i t t' := by
  cases i with
  | nop =>
    refine ⟨_, _, rfl, rfl, ?_⟩
    exact ⟨⟨rfl, rfl, rfl, rfl, rfl, rfl⟩, fun h => by simp [writesVal] at h,
      fun _ j _ hj => by simp [xWriteBound] at hj⟩
  | modinv =>
    refine ⟨_, _, rfl, rfl, ?_⟩
    obtain ⟨ha, hm⟩ := h
    rw [← modinvPlan_congr ha hm]
    rcases modinvPlan_cases s with ⟨r, -, hp⟩ | ⟨r, hp, hr, -⟩ <;> rw [hp]
    · exact sameResult_val s s' _ 0 rfl
    · exact sameResult_raise _ s s' hr
  | crtEnc k =>
    refine ⟨_, _, rfl, rfl, ?_⟩
    obtain ⟨hv, hm⟩ := h
    rw [← crtEncPlan_congr hv hm]
    rcases crtEncPlan_cases s k with ⟨hp, hk, -⟩ | ⟨r, hp, hr, -⟩ <;> rw [hp]
    · exact sameResult_digits s s' _ rfl (by simp [xWriteBound, hk]) (by simp)
    · exact sameResult_raise _ s s' hr
  | crtDec k =>
    refine ⟨_, _, rfl, rfl, ?_⟩
    obtain ⟨hm, hx⟩ := h
    rw [← crtDecPlan_congr hm hx]
    rcases crtDecPlan_cases s k with ⟨w, hp, -⟩ | ⟨r, hp, hr, -⟩ <;> rw [hp]
    · exact sameResult_val s s' _ 0 rfl
    · exact sameResult_raise _ s s' hr
  | mrDec u k =>
    obtain ⟨hv, hm⟩ := h
    exact ⟨_, _, rfl, rfl, sameResult_decomp List.length rfl rfl hv hm⟩
  | mrDecp u k =>
    obtain ⟨hv, hm⟩ := h
    exact ⟨_, _, rfl, rfl, sameResult_decomp (fun _ => k) rfl rfl hv hm⟩
  | mrRec u n =>
    refine ⟨_, _, rfl, rfl, ?_⟩
    obtain ⟨hx, hm⟩ := h
    rw [← recPlan_congr hx hm]
    rcases recPlan_cases s u n with ⟨hp, -⟩ | ⟨r, hp, hr, -⟩ <;> rw [hp]
    · exact sameResult_val s s' _ 0 rfl
    · exact sameResult_raise _ s s' hr
  | addq nx ny =>
    refine ⟨_, _, rfl, rfl, ?_⟩
    obtain ⟨hq, hx, hy⟩ := h
    rw [← addqPlan_congr hq hx hy]
    rcases addqPlan_cases s nx ny with ⟨hp, -, hnx, -⟩ | ⟨r, hp, hr, -⟩ <;> rw [hp]
    · have hlen := carryAdd_length s.qbase.toNat false (digits s.x nx) (digits s.y ny)
      rw [digits_length, min_eq_left hnx] at hlen
      exact sameResult_storeSum s s' rfl hlen.symm (by omega)
    · exact sameResult_raise _ s s' hr
  | addqc nx ny =>
    refine ⟨_, _, rfl, rfl, ?_⟩
    obtain ⟨hq, hx, hy⟩ := h
    rw [← addqcPlan_congr hq hx hy]
    rcases addqcPlan_cases s nx ny with ⟨hp, hnx, hny, -⟩ | ⟨r, hp, hr, -⟩ <;> rw [hp]
    · have hlen : (if nx < ny then carryAdd s.qbase.toNat false (digits s.y ny) (digits s.x nx)
          else carryAdd s.qbase.toNat false (digits s.x nx) (digits s.y ny)).1.length = max nx ny := by
        split <;> rw [carryAdd_length, digits_length] <;> omega
      exact sameResult_storeSum s s' rfl hlen.symm (by omega)
    · exact sameResult_raise _ s s' hr

/-- Settles O50: both completions are determined, and `exec_sameResult` compares them. -/
theorem completionDependsOnlyOnItsOperands : Obligations.CompletionDependsOnlyOnItsOperands := by
  intro i s s' t t' hreads h h'
  obtain ⟨u, u', hu, hu', hsame⟩ := exec_sameResult i hreads
  rw [hu] at h
  rw [hu'] at h'
  cases h
  cases h'
  exact hsame

end Sys2Proof.Machine

/-! ## The map of the window read backwards

Which offset each register stands at, so that a register's kind is read off the offset and the other way round
(20_memory.md R63). -/

namespace Sys2Proof.Machine

/-- The offset a register stands at (20_memory.md R63); the reserved offsets share one name and have none of their own. -/
def Reg.offset? (r : Reg) : Option Nat :=
  match r with
  | .id => some 0x000
  | .param => some 0x004
  | .ctrl => some 0x008
  | .status => some 0x00C
  | .cmd => some 0x010
  | .qbase => some 0x014
  | .val j => some (0x020 + 4 * j.val)
  | .opa j => some (0x030 + 4 * j.val)
  | .opm j => some (0x040 + 4 * j.val)
  | .mod i => some (0x400 + 4 * i.val)
  | .x i => some (0x600 + 4 * i.val)
  | .y i => some (0x800 + 4 * i.val)
  | .reserved => none

/-- `offset?` inverts the map at every aligned offset that is not reserved. -/
theorem offset?_regAt {off : Nat} (h : off % 4 = 0) :
    (regAt off).offset? = some off ∨
      (((0x018 ≤ off ∧ off < 0x020) ∨ (0x050 ≤ off ∧ off < 0x400) ∨ 0xA00 ≤ off) ∧ regAt off = .reserved) := by
  rcases regAt_cases h with ⟨rfl, hr⟩ | ⟨rfl, hr⟩ | ⟨rfl, hr⟩ | ⟨rfl, hr⟩ | ⟨rfl, hr⟩ | ⟨rfl, hr⟩ | ⟨j, rfl, hr⟩ |
    ⟨j, rfl, hr⟩ | ⟨j, rfl, hr⟩ | ⟨i, rfl, hr⟩ | ⟨i, rfl, hr⟩ | ⟨i, rfl, hr⟩ | hreserved
  case inr.inr.inr.inr.inr.inr.inr.inr.inr.inr.inr.inr => exact .inr hreserved
  all_goals exact .inl (by rw [hr]; rfl)

theorem offset?_of_ne_reserved {off : Nat} (h : off % 4 = 0) (hr : regAt off ≠ .reserved) :
    (regAt off).offset? = some off :=
  (offset?_regAt h).resolve_right fun ⟨_, h⟩ => hr h

theorem offset?_of_not_reserved {off : Nat} (h : off % 4 = 0)
    (hoff : ¬ ((0x018 ≤ off ∧ off < 0x020) ∨ (0x050 ≤ off ∧ off < 0x400) ∨ 0xA00 ≤ off)) :
    (regAt off).offset? = some off :=
  (offset?_regAt h).resolve_right fun ⟨h, _⟩ => hoff h

/-- Two aligned offsets that name the same register, not the reserved one, are the same. -/
theorem regAt_inj {off off' : Nat} (h : off % 4 = 0) (h' : off' % 4 = 0) (hr : regAt off ≠ .reserved)
    (he : regAt off' = regAt off) : off' = off := by
  have ho := offset?_of_ne_reserved h hr
  have ho' := offset?_of_ne_reserved h' (he ▸ hr)
  rw [he, ho] at ho'
  exact (Option.some.inj ho').symm

theorem eq_of_regAt_ctrl {off : Nat} (h : off % 4 = 0) (hr : regAt off = .ctrl) : off = 0x008 :=
  regAt_inj (off := 0x008) rfl h (by decide) hr

/-- The words of the 128-bit registers are data registers with no reserved bits (10_state.md R36 to R38). -/
theorem regAt_wide {off : Nat} (h : off % 4 = 0) (hoff : 0x020 ≤ off ∧ off < 0x050) :
    (regAt off).isData = true ∧ (regAt off).usedBits = 0xFFFFFFFF#32 := by
  have ho := offset?_of_not_reserved h (by omega)
  cases hr : regAt off <;> simp only [hr, Reg.offset?, Option.some.injEq, reduceCtorEq] at ho
  case val | opa | opm => exact ⟨rfl, rfl⟩
  all_goals omega

/-- `QBASE` and the buffers' entries are data registers of 16 bits (10_state.md R35, R39 to R41). -/
theorem regAt_narrow {off : Nat} (h : off % 4 = 0) (hoff : off = 0x014 ∨ (0x400 ≤ off ∧ off < 0xA00)) :
    (regAt off).isData = true ∧ (regAt off).usedBits = 0x0000FFFF#32 := by
  have ho := offset?_of_not_reserved h (by omega)
  cases hr : regAt off <;> simp only [hr, Reg.offset?, Option.some.injEq, reduceCtorEq] at ho
  case qbase | mod | x | y => exact ⟨rfl, rfl⟩
  all_goals omega

theorem isData_regAt {off : Nat} (h : off % 4 = 0)
    (hoff : off = 0x014 ∨ (0x020 ≤ off ∧ off < 0x050) ∨ (0x400 ≤ off ∧ off < 0xA00)) : (regAt off).isData = true := by
  rcases hoff with hq | hwide | hbuffer
  · exact (regAt_narrow h (.inl hq)).1
  · exact (regAt_wide h hwide).1
  · exact (regAt_narrow h (.inr hbuffer)).1

theorem Reg.collides_of_isData {r : Reg} (h : r.isData = true) : r.collides = true := by simp [Reg.collides, h]

end Sys2Proof.Machine

/-! ## A command in flight

What a turn leaves of a command in flight: a host access other than a soft reset keeps the command and its data, every
other turn ends it (20_memory.md R66, R76). A completion then leaves what it would have left at once. -/

namespace Sys2Proof.Machine

/-- `t` is busy with the command and the data registers of `s`. -/
def StillInFlight (s t : State) : Prop := t.busy = true ∧ sameData t s

theorem StillInFlight.refl {s : State} (hb : s.busy = true) : StillInFlight s s :=
  ⟨hb, rfl, rfl, rfl, rfl, rfl, rfl, rfl, rfl⟩

theorem sameData_trans {s t u : State} (h : sameData u t) (h' : sameData t s) : sameData u s := by
  obtain ⟨hcmd, hqbase, hval, hopa, hopm, hmod, hx, hy⟩ := h
  obtain ⟨hcmd', hqbase', hval', hopa', hopm', hmod', hx', hy'⟩ := h'
  exact ⟨hcmd.trans hcmd', hqbase.trans hqbase', hval.trans hval', hopa.trans hopa', hopm.trans hopm',
    hmod.trans hmod', hx.trans hx', hy.trans hy'⟩

/-! ### Host accesses -/

/-- A soft reset is served whatever is in flight, and is the reset of the block (70_reset_and_hazards.md R272). -/
theorem hostAccess_softReset (s : State) {a : Access} (h : a.isSoftReset = true) :
    s.hostAccess a = { s.hardReset with reply := some .written } := by
  cases a with
  | read size off => simp [Access.isSoftReset] at h
  | write size off v =>
    obtain ⟨⟨rfl, rfl⟩, hv⟩ : (size = .word ∧ off = 0x008) ∧ v.getLsbD 1 = true := by
      simpa [Access.isSoftReset] using h
    have hctrl : s.busWrite 0x008 v = s.writeCtrl v := by
      simp [State.busWrite, regAt, Reg.collides, Reg.isData, State.writeReg]
    simp only [State.hostAccess, checkAccess_ok (off := 0x008) rfl (by decide), hctrl, State.writeCtrl_reset s hv]

/-- Of a busy block, a write changes at most the flags that no command reads, unless it is a soft reset. -/
theorem busWrite_stillInFlight {s : State} {off : Nat} {v : Word} (hb : s.busy = true) (h : off % 4 = 0)
    (hv : off = 0x008 → v.getLsbD 1 = false) : StillInFlight s (s.busWrite off v) := by
  rcases s.busWrite_cases off v with ⟨-, hw⟩ | ⟨hc, hw⟩ <;> rw [hw]
  · exact .refl hb
  · have hfree : (regAt off).collides = false := by simpa [hb] using hc
    cases hr : regAt off with
    | ctrl =>
      rw [State.writeReg, State.writeCtrl_enable s (hv (eq_of_regAt_ctrl h hr))]
      exact .refl hb
    | id | param | status | reserved => exact .refl hb
    | cmd | qbase | val | opa | opm | mod | x | y => rw [hr] at hfree; cases hfree

theorem hostAccess_stillInFlight {s : State} {a : Access} (hb : s.busy = true) (ha : a.isSoftReset = false) :
    StillInFlight s (s.hostAccess a) := by
  cases a with
  | read size off =>
    simp only [State.hostAccess]
    split
    · obtain ⟨w, hr, -⟩ := s.busRead_cases off
      rw [hr]
      exact .refl hb
    · exact .refl hb
  | write size off v =>
    by_cases hok : size = .word ∧ off % 4 = 0 ∧ off < 0x1000
    · obtain ⟨rfl, h, h'⟩ := hok
      simp only [State.hostAccess, checkAccess_ok h h']
      exact busWrite_stillInFlight hb h fun hctrl => by simpa [Access.isSoftReset, hctrl] using ha
    · simp only [State.hostAccess, checkAccess_error hok]
      exact .refl hb

/-! ### The turns -/

/-- ALL THAT A COMPLETION STEP CAN DO: it answers a next state with a report, whatever the word in `CMD`
(40_command.md R121, R123). -/
theorem completion_cases (s : State) : ∃ (v : Value) (x : Buffer) (r : Report),
    s.completion = .next ({ s with val := v, x := x }.complete r) := by
  unfold State.completion
  split
  next i _ =>
    obtain ⟨v, x, r, hexec, -⟩ := exec_cases i s
    exact ⟨v, x, r, hexec⟩
  next => exact ⟨s.val, s.x, _, rfl⟩

theorem engineTurn_idle {s t : State} (h : s.engineTurn = .next t) : t.busy = false := by
  unfold State.engineTurn at h
  split at h
  · obtain ⟨v, x, r, hc⟩ := completion_cases s
    rw [hc] at h
    cases h
    rfl
  next hb =>
    cases h
    simpa using hb

/-- The turns of the engine and of reset leave no command in flight, and a soft reset leaves none. -/
theorem takeTurn_sameData {s t : State} (turn : Turn) (hb : s.busy = true) (h : s.takeTurn turn = .next t)
    (ht : t.busy = true) : sameData t s := by
  cases turn with
  | host a =>
    cases h
    cases ha : a.isSoftReset with
    | true => rw [hostAccess_softReset s ha] at ht; cases ht
    | false => exact (hostAccess_stillInFlight hb ha).2
  | engine => rw [engineTurn_idle h] at ht; cases ht
  | reset => cases h; cases ht

/-- Settles O53: the turns one by one, with the engine's where none is left; a host turn by `hostAccess_stillInFlight`. -/
theorem stepKeepsInFlightCommand : Obligations.StepKeepsInFlightCommand := by
  refine ⟨fun s t hb h ht => ?_, fun s t a rest hb hagenda ha h => ?_⟩
  · unfold step at h
    split at h
    next => rw [engineTurn_idle h] at ht; cases ht
    next turn rest _ => exact takeTurn_sameData (s := { s with agenda := rest }) turn hb h ht
  · rw [step, hagenda] at h
    cases h
    exact hostAccess_stillInFlight (s := { s with agenda := rest }) hb ha

end Sys2Proof.Machine

/-! ## Host accesses before the completion

A completion is a function of the command word and the data registers, and host accesses other than a soft reset change
neither (20_memory.md R76, 70_reset_and_hazards.md R285). -/

namespace Sys2Proof.Machine

/-! ### A completion is a function of the data -/

theorem code_eq_seven {c : ErrCode} (h : c.code = 7) : c = .carry := by
  cases c with
  | carry => rfl
  | none | illegal | length | modulus | digit | noInv | overflow | unsupported | nonFactor => simp [ErrCode.code] at h

/-- A failed completion writes neither `VAL` nor `X` (60_exceptions.md R245). -/
theorem exec_failed_frame {i : Instr} {s t : State} (h : exec i s = .next t) (h0 : t.errcode ≠ 0) (h7 : t.errcode ≠ 7) :
    t.val = s.val ∧ t.x = s.x := by
  obtain ⟨v, x, r, hexec, -, hresult⟩ := exec_cases i s
  rw [hexec] at h
  cases h
  exact hresult.failed (fun hc => h0 (by simp [hc, ErrCode.code])) (fun hc => h7 (by simp [hc, ErrCode.code]))

/-- A carry comes from the adder, which returns no value (43_base_q_adder.md R203). -/
theorem exec_carry_writesVal {i : Instr} {s t : State} (h : exec i s = .next t) (h7 : t.errcode = 7) :
    writesVal i = false := by
  obtain ⟨v, x, r, hexec, hlegal, -⟩ := exec_cases i s
  rw [hexec] at h
  cases h
  obtain ⟨nx, ny, rfl | rfl⟩ := hlegal.carry (code_eq_seven h7) <;> rfl

/-- States with the same data agree on what any command reads. -/
theorem agreeOnReads_of_sameData (i : Instr) {s s' : State} (h : sameData s s') : agreeOnReads i s s' := by
  obtain ⟨-, hqbase, hval, hopa, hopm, hmod, hx, hy⟩ := h
  cases i <;> simp [agreeOnReads, agreeBelow, *]

/-- `VAL` after two completions with the same report: returned by both, or kept by both. -/
theorem exec_val_eq {i : Instr} {s s' t t' : State} (hs : sameData s s') (h : exec i s = .next t)
    (h' : exec i s' = .next t') : t.val = t'.val := by
  obtain ⟨hreport, hreturned, -⟩ := completionDependsOnlyOnItsOperands i s s' t t' (agreeOnReads_of_sameData i hs) h h'
  obtain ⟨-, -, hcode, -⟩ := hreport
  obtain ⟨-, -, hval, -⟩ := hs
  have kept : writesVal i = false → t.val = t'.val := fun hi => by
    rw [(commandsWriteOnlyTheirRegisters i s t h).2.1 hi, (commandsWriteOnlyTheirRegisters i s' t' h').2.1 hi, hval]
  by_cases h0 : t.errcode = 0
  · cases hi : writesVal i with
    | true => exact hreturned hi h0
    | false => exact kept hi
  by_cases h7 : t.errcode = 7
  · exact kept (exec_carry_writesVal h h7)
  · rw [(exec_failed_frame h h0 h7).1, (exec_failed_frame h' (hcode ▸ h0) (hcode ▸ h7)).1, hval]

/-- `X` after two completions with the same report: written alike below the command's bound, kept from it on. -/
theorem exec_x_eq {i : Instr} {s s' t t' : State} (hs : sameData s s') (h : exec i s = .next t)
    (h' : exec i s' = .next t') : t.x = t'.x := by
  obtain ⟨hreport, -, hwritten⟩ := completionDependsOnlyOnItsOperands i s s' t t' (agreeOnReads_of_sameData i hs) h h'
  obtain ⟨-, -, hcode, -⟩ := hreport
  obtain ⟨-, -, -, -, -, -, hx, -⟩ := hs
  by_cases hok : t.errcode = 0 ∨ t.errcode = 7
  · ext j hj : 1
    by_cases hlt : j < xWriteBound i
    · exact hwritten hok j hj hlt
    · have hframe := (commandsWriteOnlyTheirRegisters i s t h).2.2 j hj (by omega)
      have hframe' := (commandsWriteOnlyTheirRegisters i s' t' h').2.2 j hj (by omega)
      rw [hframe, hframe', hx]
  · obtain ⟨h0, h7⟩ := not_or.1 hok
    rw [(exec_failed_frame h h0 h7).2, (exec_failed_frame h' (hcode ▸ h0) (hcode ▸ h7)).2, hx]

theorem exec_congr {i : Instr} {s s' t t' : State} (hs : sameData s s') (h : exec i s = .next t)
    (h' : exec i s' = .next t') : sameData t t' ∧ sameReport t t' := by
  have hval := exec_val_eq hs h h'
  have hx := exec_x_eq hs h h'
  have hreport := (completionDependsOnlyOnItsOperands i s s' t t' (agreeOnReads_of_sameData i hs) h h').1
  obtain ⟨hcmd, hqbase, -, hopa, hopm, hmod, -, hy⟩ := hs
  obtain ⟨ht, -⟩ := commandsWriteOnlyTheirRegisters i s t h
  obtain ⟨ht', -⟩ := commandsWriteOnlyTheirRegisters i s' t' h'
  refine ⟨?_, hreport⟩
  rw [ht, ht']
  exact ⟨hcmd, hqbase, hval, hopa, hopm, hmod, hx, hy⟩

/-- The completion step depends on the command word and the data registers only, also of an illegal word. -/
theorem completion_congr {s s' : State} (hs : sameData s s') :
    ∃ t t', s.completion = .next t ∧ s'.completion = .next t' ∧ sameData t t' ∧ sameReport t t' := by
  have hcmd : s.cmd = s'.cmd := hs.1
  unfold State.completion
  rw [← hcmd]
  split
  next i _ =>
    obtain ⟨v, x, r, h, -⟩ := exec_cases i s
    obtain ⟨v', x', r', h', -⟩ := exec_cases i s'
    exact ⟨_, _, h, h', exec_congr hs h h'⟩
  next => exact ⟨_, _, rfl, rfl, hs, rfl, rfl, rfl, rfl, rfl, rfl⟩

/-! ### A run of host accesses -/

theorem run_succ_of_step {M : Host.Core} {s t : M.State} (h : M.step s = .next t) (k : Nat) :
    M.run (k + 1) s = M.run k t := by
  rw [Host.Core.run, h]

theorem core_run_succ {s t : State} (h : step s = .next t) (k : Nat) :
    Sys2Proof.core.run (k + 1) s = Sys2Proof.core.run k t :=
  run_succ_of_step (M := Sys2Proof.core) h k

theorem writeReg_agenda (s : State) (r : Reg) (v : Word) : (s.writeReg r v).agenda = s.agenda := by
  cases r with
  | ctrl => simp only [State.writeReg, State.writeCtrl]; split <;> rfl
  | id | param | status | cmd | qbase | val | opa | opm | mod | x | y | reserved => rfl

/-- No host access changes the turns to come. -/
theorem hostAccess_agenda (s : State) (a : Access) : (s.hostAccess a).agenda = s.agenda := by
  cases a with
  | read size off =>
    simp only [State.hostAccess]
    split
    · obtain ⟨w, hr, -⟩ := s.busRead_cases off
      rw [hr]
    · rfl
  | write size off v =>
    simp only [State.hostAccess]
    split
    · rcases s.busWrite_cases off v with ⟨-, hw⟩ | ⟨-, hw⟩ <;> simp only [hw]
      · rfl
      · exact writeReg_agenda s _ v
    · rfl

/-- Host accesses before any other turns leave those turns to come and the command in flight as it was. -/
theorem run_hosts_stillInFlight (as : List Access) (rest : List Turn) (has : ∀ a ∈ as, a.isSoftReset = false) :
    ∀ s : State, s.busy = true → s.agenda = as.map Turn.host ++ rest →
      ∃ u, (∀ k, Sys2Proof.core.run (as.length + k) s = Sys2Proof.core.run k u) ∧ u.agenda = rest ∧ StillInFlight s u := by
  induction as with
  | nil => exact fun s hb hs => ⟨s, fun k => by rw [List.length_nil, Nat.zero_add], hs, .refl hb⟩
  | cons a as ih =>
    intro s hb hs
    have ha : a.isSoftReset = false := has a (by simp)
    have hstep : step s = .next ({ s with agenda := as.map Turn.host ++ rest }.hostAccess a) := by
      rw [step, hs]
      rfl
    obtain ⟨hbusy, hdata⟩ := hostAccess_stillInFlight (s := { s with agenda := as.map Turn.host ++ rest }) hb ha
    obtain ⟨u, hrun, hagenda, hbusy', hdata'⟩ := ih (fun b hm => has b (by simp [hm])) _ hbusy (hostAccess_agenda _ a)
    refine ⟨u, fun k => ?_, hagenda, hbusy', sameData_trans hdata' hdata⟩
    rw [List.length_cons, Nat.add_right_comm, core_run_succ hstep, hrun]

theorem step_engine {s : State} {rest : List Turn} (hb : s.busy = true) (hs : s.agenda = .engine :: rest) :
    step s = { s with agenda := rest }.completion := by
  simp only [step, hs, State.takeTurn, State.engineTurn, hb, if_true]

/-- Settles O25: after the host accesses the engine completes the same command on the same data (`completion_congr`). -/
theorem inFlightOperandsAreFrozen : Obligations.InFlightOperandsAreFrozen := by
  intro s as rest hb has
  obtain ⟨u, hrun, hagenda, hbusy, hdata⟩ := run_hosts_stillInFlight as (.engine :: rest) has
    { s with agenda := as.map Turn.host ++ .engine :: rest } hb rfl
  obtain ⟨t, t', ht, ht', hsame⟩ :=
    completion_congr (s := { u with agenda := rest }) (s' := { s with agenda := rest }) hdata
  refine ⟨t, t', ?_, ?_, hsame⟩
  · exact (hrun 1).trans (core_run_succ ((step_engine hbusy hagenda).trans ht) 0)
  · exact (step_engine (s := { s with agenda := .engine :: rest }) hb rfl).trans ht'

end Sys2Proof.Machine

/-! ## Refused accesses

An access is answered with a bus error exactly where `checkAccess` refuses it, and then nothing but the reply changes
(20_memory.md R65). -/

namespace Sys2Proof.Machine

section Refused

variable {size : AccessSize} {off : Nat} (h : ¬ (size = .word ∧ off % 4 = 0 ∧ off < 0x1000))

include h

theorem step_read_refused (s : State) (rest : List Turn) :
    step { s with agenda := .host (.read size off) :: rest } =
      .next { s with agenda := rest, reply := some (.fault .busError) } := by
  simp only [step, State.takeTurn, State.hostAccess, checkAccess_error h]

theorem step_write_refused (s : State) (rest : List Turn) (v : Word) :
    step { s with agenda := .host (.write size off v) :: rest } =
      .next { s with agenda := rest, reply := some (.fault .busError) } := by
  simp only [step, State.takeTurn, State.hostAccess, checkAccess_error h]

end Refused

/-- Settles O20: such an access is refused. -/
theorem unalignedAccessIsBusError : Obligations.UnalignedAccessIsBusError := by
  intro s rest size off v hbad
  have h : ¬ (size = .word ∧ off % 4 = 0 ∧ off < 0x1000) := fun ⟨hsize, halign, _⟩ => hbad.elim (· hsize) (· halign)
  exact ⟨step_read_refused h s rest, step_write_refused h s rest v⟩

/-- What a read of register `r` may answer: its content or, for a data register of a busy block, any word with its reserved
bits 0 (20_memory.md R67). -/
def State.MayAnswer (s : State) (r : Reg) (c : Word) : Prop :=
  c = s.peek r ∨ (s.busy = true ∧ r.isData = true ∧ ∃ v, c = v &&& r.usedBits)

/-- A served read: the answer is a word, and of the rest of the state only the count of values drawn may change
(20_memory.md R67). -/
theorem step_read_answers (s : State) (rest : List Turn) {off : Nat} (h : off % 4 = 0) (h' : off < 0x1000) :
    ∃ (c : Word) (n : Nat),
      step { s with agenda := .host (.read .word off) :: rest } =
        .next { s with agenda := rest, reply := some (.data c), draws := n } ∧
      s.MayAnswer (regAt off) c := by
  obtain ⟨c, hread, hc⟩ := State.busRead_cases { s with agenda := rest } off
  refine ⟨c, _, (step_read h h').trans (congrArg _ hread), ?_⟩
  rcases hc with ⟨-, hpeek⟩ | ⟨hbusy, hdrawn⟩
  · exact .inl (hpeek.trans (s.peek_agenda rest _))
  · obtain ⟨hb, hd⟩ : s.busy = true ∧ (regAt off).isData = true := by simpa using hbusy
    exact .inr ⟨hb, hd, hdrawn⟩

/-- Settles O21: a served access is answered, any other is refused. -/
theorem busErrorsAreExactlyTheBadAccesses : Obligations.BusErrorsAreExactlyTheBadAccesses := by
  intro s rest size off v
  refine ⟨?_, fun h => ⟨⟨_, step_read_refused h s rest, rfl⟩, ⟨_, step_write_refused h s rest v, rfl⟩⟩⟩
  rintro ⟨rfl, h, h'⟩
  obtain ⟨c, n, hread, -⟩ := step_read_answers s rest h h'
  exact ⟨⟨_, c, hread, rfl⟩, ⟨_, step_write h h', rfl⟩⟩

end Sys2Proof.Machine

/-! ## Defined and reserved bits

The bits of each register that are not reserved: the others read 0 and are ignored by a write (20_memory.md R64). -/

namespace Sys2Proof.Machine

/-- The bits of a register that are not reserved (10_state.md R22, R23, R26 and, for the data registers, `usedBits`). -/
def Reg.definedBits (r : Reg) : Word :=
  match r with
  | .param => 0x00FFFFFF#32
  | .ctrl => 0x00000003#32
  | .status => 0x01FFFFFF#32
  | .id | .cmd | .qbase | .val _ | .opa _ | .opm _ | .mod _ | .x _ | .y _ | .reserved => r.usedBits

theorem Reg.definedBits_of_isData {r : Reg} (h : r.isData = true) : r.definedBits = r.usedBits := by
  cases r with
  | param | ctrl | status => cases h
  | id | cmd | reserved | qbase | val | opa | opm | mod | x | y => rfl

theorem definedBits_narrow {off : Nat} (h : off % 4 = 0) (hoff : off = 0x014 ∨ (0x400 ≤ off ∧ off < 0xA00)) :
    (regAt off).definedBits = 0x0000FFFF#32 :=
  have ⟨hdata, hused⟩ := regAt_narrow h hoff
  (Reg.definedBits_of_isData hdata).trans hused

/-! ### Masks of the low bits -/

/-- A number below `2 ^ n` is kept by the mask of the low `n` bits. -/
theorem and_lowMask {c : Word} {n : Nat} (hn : n ≤ 32) (h : c.toNat < 2 ^ n) : c &&& BitVec.ofNat 32 (2 ^ n - 1) = c := by
  have hpow : 2 ^ n ≤ 2 ^ 32 := Nat.pow_le_pow_right (by decide) hn
  apply BitVec.eq_of_toNat_eq
  rw [BitVec.toNat_and, BitVec.toNat_ofNat, Nat.mod_eq_of_lt (a := 2 ^ n - 1) (by omega), Nat.and_two_pow_sub_one_eq_mod,
    Nat.mod_eq_of_lt h]

theorem and_wordMask (v : Word) : v &&& 0xFFFFFFFF#32 = v := and_lowMask (n := 32) (by decide) v.isLt

/-- The word that holds a digit has no bit above the digit's 16. -/
theorem setWidth_and_digitMask (d : Digit) : d.setWidth 32 &&& 0x0000FFFF#32 = d.setWidth 32 :=
  and_lowMask (n := 16) (by decide) (by rw [BitVec.toNat_setWidth_of_le (by decide)]; exact d.isLt)

/-- Cutting a word to a digit is masking it to 16 bits. -/
theorem setWidth_digit (v : Word) : (v.setWidth 16).setWidth 32 = v &&& 0x0000FFFF#32 := by
  have hmask : v.toNat &&& 65535 = v.toNat % 2 ^ 16 := Nat.and_two_pow_sub_one_eq_mod v.toNat 16
  apply BitVec.eq_of_toNat_eq
  simp [hmask]
  omega

theorem digit_of_masked (v : Word) : (v &&& 0x0000FFFF#32).setWidth 16 = v.setWidth 16 := by
  rw [← setWidth_digit, BitVec.setWidth_setWidth_of_le _ (by decide), BitVec.setWidth_eq]

/-! ### Reads and writes -/

theorem statusWord_lt (s : State) : s.statusWord.toNat < 2 ^ 25 := by
  obtain ⟨-, -, -, hreserved⟩ := statusWord_fields s
  have hzero := congrArg BitVec.toNat hreserved
  have hlt := s.statusWord.isLt
  simp [Nat.shiftRight_eq_div_pow] at hzero
  omega

theorem ctrlWord_eq (s : State) : s.ctrlWord = (BitVec.ofBool s.ie).setWidth 32 := by simp [State.ctrlWord, placeField]

/-- A register's content has its reserved bits 0. -/
theorem peek_and_definedBits (s : State) (r : Reg) : s.peek r &&& r.definedBits = s.peek r := by
  cases r with
  | param => exact and_lowMask (c := Config.paramWord) (n := 24) (by decide) (by decide)
  | ctrl => cases h : s.ie <;> simp [State.peek, ctrlWord_eq, h, Reg.definedBits]
  | status => exact and_lowMask (n := 25) (by decide) (statusWord_lt s)
  | qbase | mod | x | y => exact setWidth_and_digitMask _
  | id | cmd | val | opa | opm | reserved => exact and_wordMask _

/-- A write means the same with its reserved bits cleared. -/
theorem writeReg_and_definedBits (s : State) (r : Reg) (v : Word) : s.writeReg r (v &&& r.definedBits) = s.writeReg r v := by
  cases r with
  | id | param | reserved => rfl
  | ctrl => simp [State.writeReg, State.writeCtrl, Reg.definedBits]
  | status => simp [State.writeReg, State.acknowledge, Reg.definedBits]
  | qbase | mod | x | y => simp only [State.writeReg, Reg.definedBits, Reg.usedBits, digit_of_masked]
  | cmd | val | opa | opm => simp only [Reg.definedBits, Reg.usedBits, and_wordMask]

/-- Whatever a read answers, content or unspecified value, its reserved bits are 0. -/
theorem answer_and_definedBits {s : State} {r : Reg} {c : Word} (hc : s.MayAnswer r c) : c &&& r.definedBits = c := by
  rcases hc with rfl | ⟨-, hdata, v, rfl⟩
  · exact peek_and_definedBits s r
  · rw [Reg.definedBits_of_isData hdata, BitVec.and_assoc, BitVec.and_self]

theorem and_eq_zero_of_masked {c m : Word} (h : c &&& m = c) : c &&& ~~~m = 0 := by
  rw [← h, BitVec.and_assoc, BitVec.and_not_self]
  exact BitVec.and_zero

/-- A read that answers a word was served. -/
theorem step_read_data {s t : State} {rest : List Turn} {off : Nat} {c : Word}
    (h : step { s with agenda := .host (.read .word off) :: rest } = .next t) (hc : t.reply = some (.data c)) :
    off % 4 = 0 ∧ c &&& (regAt off).definedBits = c := by
  by_cases hok : AccessSize.word = .word ∧ off % 4 = 0 ∧ off < 0x1000
  · obtain ⟨-, halign, hlt⟩ := hok
    obtain ⟨c', n, hread, hanswer⟩ := step_read_answers s rest halign hlt
    rw [hread] at h
    cases h
    cases hc
    exact ⟨halign, answer_and_definedBits hanswer⟩
  · rw [step_read_refused hok] at h
    cases h
    cases hc

theorem busWrite_and_definedBits (s : State) (off : Nat) (v : Word) :
    s.busWrite off (v &&& (regAt off).definedBits) = s.busWrite off v := by
  simp only [State.busWrite, writeReg_and_definedBits]

theorem step_write_definedBits (s : State) (rest : List Turn) (off : Nat) (v : Word) :
    step { s with agenda := .host (.write .word off (v &&& (regAt off).definedBits)) :: rest } =
      step { s with agenda := .host (.write .word off v) :: rest } := by
  by_cases hok : AccessSize.word = .word ∧ off % 4 = 0 ∧ off < 0x1000
  · obtain ⟨-, halign, hlt⟩ := hok
    rw [step_write halign hlt, step_write halign hlt, busWrite_and_definedBits]
  · rw [step_write_refused hok, step_write_refused hok]

/-- Settles O19: a reserved offset holds no data and never collides; the reserved bits of a defined register are those
outside `definedBits`. -/
theorem reservedReadsZeroIgnoresWrites : Obligations.ReservedReadsZeroIgnoresWrites := by
  refine ⟨fun s rest off v h h' hoff => ?_, fun s t rest off c h hc => ?_, fun s rest off v m hm => ?_⟩
  · have hr := regAt_reserved hoff
    refine ⟨(step_read_nonData s rest h h' (by rw [hr]; rfl)).trans ?_,
      (step_write_nonColliding s rest v h h' (by rw [hr]; rfl)).trans ?_⟩ <;> rw [hr] <;> rfl
  · obtain ⟨halign, hmask⟩ := step_read_data h hc
    have hzero := and_eq_zero_of_masked hmask
    refine ⟨?_, ?_, ?_, fun hnarrow => ?_⟩
    · rintro rfl; exact hzero
    · rintro rfl; exact hzero
    · rintro rfl; exact hzero
    · rw [definedBits_narrow halign hnarrow] at hzero
      exact hzero
  · by_cases halign : off % 4 = 0
    · have hdefined : m = (regAt off).definedBits := by
        rcases hm with ⟨rfl, rfl⟩ | ⟨rfl, rfl⟩ | ⟨rfl, rfl⟩ | ⟨hnarrow, rfl⟩
        · rfl
        · rfl
        · rfl
        · exact (definedBits_narrow halign hnarrow).symm
      rw [hdefined, step_write_definedBits]
    · have hbad : ¬ (AccessSize.word = .word ∧ off % 4 = 0 ∧ off < 0x1000) := fun h => halign h.2.1
      rw [step_write_refused hbad, step_write_refused hbad]

end Sys2Proof.Machine

/-! ## Reads and writes of the window

What each register answers to a read and does on a write, idle and busy (20_memory.md R66, R67, R69). -/

namespace Sys2Proof.Machine

/-- Settles O18: the register each offset names, its content, and for a busy data register the reserved bits only. -/
theorem readsReturnContent : Obligations.ReadsReturnContent := by
  intro s rest off h h'
  obtain ⟨c, n, hread, hc⟩ := step_read_answers s rest h h'
  have hcontent : (s.busy = false ∨ (regAt off).isData = false) → c = s.peek (regAt off) := fun hserved =>
    hc.resolve_right fun ⟨hbusy, hdata, _⟩ => by simp [hbusy, hdata] at hserved
  refine ⟨_, c, hread, rfl, ?_, ?_, ?_, ?_, ?_, ?_, fun j hj hidle => ⟨?_, ?_, ?_⟩, fun i hi hidle => ⟨?_, ?_, ?_⟩,
    fun hnarrow => ?_⟩
  · rintro rfl; exact hcontent (.inr rfl)
  · rintro rfl; exact hcontent (.inr rfl)
  · rintro rfl; exact (hcontent (.inr rfl)).trans (ctrlWord_eq s)
  · rintro rfl; exact hcontent (.inr rfl)
  · rintro rfl; exact hcontent (.inr rfl)
  · rintro hidle rfl; exact hcontent (.inl hidle)
  · rintro rfl; exact (hcontent (.inl hidle)).trans (congrArg s.peek (regAt_val ⟨j, hj⟩))
  · rintro rfl; exact (hcontent (.inl hidle)).trans (congrArg s.peek (regAt_opa ⟨j, hj⟩))
  · rintro rfl; exact (hcontent (.inl hidle)).trans (congrArg s.peek (regAt_opm ⟨j, hj⟩))
  · rintro rfl; exact (hcontent (.inl hidle)).trans (congrArg s.peek (regAt_mod ⟨i, hi⟩))
  · rintro rfl; exact (hcontent (.inl hidle)).trans (congrArg s.peek (regAt_x ⟨i, hi⟩))
  · rintro rfl; exact (hcontent (.inl hidle)).trans (congrArg s.peek (regAt_y ⟨i, hi⟩))
  · have hmask := answer_and_definedBits hc
    rw [definedBits_narrow h hnarrow] at hmask
    exact and_eq_zero_of_masked hmask

/-- A write to a register that collides with a busy engine only sets `COLL` (20_memory.md R66). -/
theorem step_write_colliding {s : State} (rest : List Turn) (v : Word) {off : Nat} (hb : s.busy = true)
    (h : off % 4 = 0) (h' : off < 0x1000) (hr : (regAt off).collides = true) :
    step { s with agenda := .host (.write .word off v) :: rest } =
      .next { s with coll := true, agenda := rest, reply := some .written } := by
  rw [step_write h h']
  simp [State.busWrite, State.collide, hb, hr]

/-- A write to an idle block has the register's own effect. -/
theorem step_write_idle {s : State} (rest : List Turn) (v : Word) {off : Nat} (hidle : s.busy = false)
    (h : off % 4 = 0) (h' : off < 0x1000) :
    step { s with agenda := .host (.write .word off v) :: rest } =
      .next { { s with agenda := rest }.writeReg (regAt off) v with reply := some .written } := by
  rw [step_write h h']
  simp [State.busWrite, hidle]

theorem step_write_ctrl (s : State) (rest : List Turn) (v : Word) :
    step { s with agenda := .host (.write .word 0x008 v) :: rest } =
      .next { { s with agenda := rest }.writeCtrl v with reply := some .written } :=
  step_write_nonColliding s rest v rfl (by decide) rfl

/-- A write to `ID`, `PARAM` or a reserved offset has no effect, idle or busy (20_memory.md R64, R66). -/
theorem step_write_ignored (s : State) (rest : List Turn) (v : Word) {off : Nat} (h : off % 4 = 0) (h' : off < 0x1000)
    (hr : regAt off = .id ∨ regAt off = .param ∨ regAt off = .reserved) :
    step { s with agenda := .host (.write .word off v) :: rest } =
      .next { s with agenda := rest, reply := some .written } := by
  rw [step_write h h', State.busWrite]
  rcases hr with hr | hr | hr <;> simp [hr, Reg.collides, Reg.isData, State.writeReg]

/-- Settles O17: the data registers and `CMD` collide; the other registers have their own effect, the soft reset among
them. -/
theorem busyWritesCollide : Obligations.BusyWritesCollide := by
  intro s rest off v hb h h'
  obtain ⟨t, ht⟩ : ∃ t, step { s with agenda := .host (.write .word off v) :: rest } = .next t := ⟨_, step_write h h'⟩
  refine ⟨t, ht, fun hoff => ?colliding, ?enable, ?softReset, ?acknowledge, fun hoff => ?ignored⟩
  case colliding =>
    have hr : (regAt off).collides = true := by
      rcases hoff with rfl | hdata
      · rfl
      · exact Reg.collides_of_isData (isData_regAt h hdata)
    rw [step_write_colliding rest v hb h h' hr] at ht
    cases ht
    rfl
  case enable =>
    rintro ⟨rfl, hv⟩
    rw [step_write_ctrl, State.writeCtrl_enable _ hv] at ht
    cases ht
    rfl
  case softReset =>
    rintro ⟨rfl, hv⟩
    rw [step_write_ctrl, State.writeCtrl_reset _ hv] at ht
    cases ht
    rfl
  case acknowledge =>
    rintro rfl
    rw [step_write_nonColliding s rest v h h' rfl] at ht
    cases ht
    rfl
  case ignored =>
    have hr : regAt off = .id ∨ regAt off = .param ∨ regAt off = .reserved := by
      rcases hoff with rfl | rfl | hreserved
      · exact .inl rfl
      · exact .inr (.inl rfl)
      · exact .inr (.inr (regAt_reserved hreserved))
    rw [step_write_ignored s rest v h h' hr] at ht
    cases ht
    rfl

/-! ### Read after write -/

/-- A data register reads back what was written, its reserved bits 0 (20_memory.md R69). -/
theorem peek_writeReg_same (s : State) {r : Reg} (v : Word) (h : r.isData = true) :
    (s.writeReg r v).peek r = v &&& r.usedBits := by
  cases r with
  | id | param | ctrl | status | cmd | reserved => cases h
  | qbase => exact setWidth_digit v
  | val j | opa j | opm j =>
    exact (wordOf_setWordOf _ j j v).trans ((if_pos rfl).trans (and_wordMask v).symm)
  | mod i | x i | y i => simp [State.peek, State.writeReg, Reg.usedBits, setWidth_digit]

theorem wordOf_setWordOf_ne (w : Value) {j k : Fin 4} (v : Word) (h : k ≠ j) : wordOf (setWordOf w j v) k = wordOf w k := by
  rw [wordOf_setWordOf, if_neg h]

/-- Writing one entry of a buffer leaves the word another entry reads as. -/
theorem setWidth_set_ne (b : Buffer) {i k : Fin 128} (d : Digit) (h : k ≠ i) :
    ((b.set i.val d i.isLt)[k]).setWidth 32 = (b[k]).setWidth 32 := by
  simp [Vector.getElem_set_ne, Fin.val_ne_of_ne h.symm]

/-- A write to a data register leaves every other register's content as it was. -/
theorem peek_writeReg_other (s : State) {r r' : Reg} (v : Word) (h : r.isData = true) (hne : r' ≠ r) :
    (s.writeReg r v).peek r' = s.peek r' := by
  cases r with
  | id | param | ctrl | status | cmd | reserved => cases h
  | qbase => cases r' with
    | qbase => exact absurd rfl hne
    | _ => rfl
  | val j => cases r' with
    | val k => exact wordOf_setWordOf_ne s.val v fun hk => hne (congrArg Reg.val hk)
    | _ => rfl
  | opa j => cases r' with
    | opa k => exact wordOf_setWordOf_ne s.opa v fun hk => hne (congrArg Reg.opa hk)
    | _ => rfl
  | opm j => cases r' with
    | opm k => exact wordOf_setWordOf_ne s.opm v fun hk => hne (congrArg Reg.opm hk)
    | _ => rfl
  | mod i => cases r' with
    | mod k => exact setWidth_set_ne s.mod _ fun hk => hne (congrArg Reg.mod hk)
    | _ => rfl
  | x i => cases r' with
    | x k => exact setWidth_set_ne s.x _ fun hk => hne (congrArg Reg.x hk)
    | _ => rfl
  | y i => cases r' with
    | y k => exact setWidth_set_ne s.y _ fun hk => hne (congrArg Reg.y hk)
    | _ => rfl

/-- A write to a data register leaves the report, `COLL`, `IE` and `CMD`. -/
theorem writeReg_frame (s : State) {r : Reg} (v : Word) (h : r.isData = true) :
    sameReport (s.writeReg r v) s ∧ (s.writeReg r v).coll = s.coll ∧ (s.writeReg r v).ie = s.ie ∧
      (s.writeReg r v).cmd = s.cmd := by
  cases r with
  | id | param | ctrl | status | cmd | reserved => cases h
  | qbase | val | opa | opm | mod | x | y => exact ⟨⟨rfl, rfl, rfl, rfl, rfl, rfl⟩, rfl, rfl, rfl⟩

/-! ### The bytes of the window -/

/-- Byte lane `j` of the register at `off` stands at bus address `BASE + off + j` (20_memory.md R68). -/
theorem windowByte_at (s : State) {off : Nat} (h : off % 4 = 0) (h' : off < 0x1000) (j : Fin 4) :
    s.windowByte (Config.base + off + j.val) = some (byteLane (s.peek (regAt off)) j) := by
  have hj := j.isLt
  have hword : (Config.base + off + j.val - Config.base) / 4 * 4 = off := by omega
  have hlane : Fin.ofNat 4 (Config.base + off + j.val - Config.base) = j := Fin.ext (by simp only [Fin.val_ofNat]; omega)
  rw [State.windowByte, if_pos (by simp only [Config.windowSize]; omega), hword, hlane]

/-- A byte of the window is a byte of the register at the aligned offset below it. -/
theorem windowByte_congr {s t : State} {addr : Nat}
    (h : Config.base ≤ addr → t.peek (regAt ((addr - Config.base) / 4 * 4)) = s.peek (regAt ((addr - Config.base) / 4 * 4))) :
    t.windowByte addr = s.windowByte addr := by
  unfold State.windowByte
  split
  next hin => rw [h hin.1]
  next => rfl

/-- A write to the data register at `off` leaves the content found at every other aligned offset. -/
theorem peek_regAt_writeReg_other (s : State) {off off' : Nat} (v : Word) (h : off % 4 = 0) (h' : off' % 4 = 0)
    (hdata : (regAt off).isData = true) (hne : off' ≠ off) :
    (s.writeReg (regAt off) v).peek (regAt off') = s.peek (regAt off') :=
  peek_writeReg_other s v hdata fun he => hne (regAt_inj h h' (fun hr => by rw [hr] at hdata; cases hdata) he)

@[simp] theorem State.peek_reply (s : State) (a : Option Reply) (r : Reg) : { s with reply := a }.peek r = s.peek r := by
  cases r <;> rfl

theorem usedBits_regAt {off : Nat} (v : Word) (h : off % 4 = 0)
    (hoff : off = 0x014 ∨ (0x020 ≤ off ∧ off < 0x050) ∨ (0x400 ≤ off ∧ off < 0xA00)) :
    v &&& (regAt off).usedBits = if 0x020 ≤ off ∧ off < 0x050 then v else v &&& 0x0000FFFF#32 := by
  split
  next hwide => rw [(regAt_wide h hwide).2, and_wordMask]
  next hnot => rw [(regAt_narrow h (by omega)).2]

/-- Settles O24: the register's four bytes by `peek_writeReg_same`, every other byte by `peek_regAt_writeReg_other`. -/
theorem idleWriteStoresItsWordOnly : Obligations.IdleWriteStoresItsWordOnly := by
  intro s rest off v hidle h hoff
  have h' : off < 0x1000 := by omega
  have hdata := isData_regAt h hoff
  refine ⟨_, step_write_idle rest v hidle h h', fun j => ?_, fun addr haddr => ?_, writeReg_frame _ v hdata⟩
  · rw [windowByte_at _ h h', State.peek_reply, peek_writeReg_same _ v hdata, usedBits_regAt v h hoff, byteLane]
  · refine windowByte_congr fun hbase => ?_
    rw [State.peek_reply, peek_regAt_writeReg_other _ v h (by omega) hdata (by omega), State.peek_agenda]

end Sys2Proof.Machine

/-! ## The command word: its fields, the opcode map, and the round trip

A word is its six fields (30_encoding.md R90), and a row of the opcode map accepts it exactly when `OP` names the row and
every field the row fixes is 0 (R94, R97). The decoder is read off these fields; no later proof looks at a mask. -/

namespace Sys2Proof

open Machine (placeField extract_placeField_same extract_placeField_disjoint getElem_placeField)

/-! ### The fields by division -/

theorem opField_toNat (w : Word) : (opField w).toNat = w.toNat % 32 := by simp [opField]

theorem uField_toNat (w : Word) : (uField w).toNat = w.toNat / 32 % 2 := by
  rw [uField, ← BitVec.testBit_toNat, Nat.testBit_eq_decide_div_mod_eq, show 2 ^ 5 = 32 from rfl]
  rcases Nat.mod_two_eq_zero_or_one (w.toNat / 32) with h | h <;> simp [h]

theorem rsv0Field_toNat (w : Word) : (rsv0Field w).toNat = w.toNat / 64 % 4 := by
  simp [rsv0Field, Nat.shiftRight_eq_div_pow]

theorem nxField_eq (w : Word) : nxField w = w.toNat / 256 % 256 := by simp [nxField, Nat.shiftRight_eq_div_pow]

theorem nyField_eq (w : Word) : nyField w = w.toNat / 65536 % 256 := by simp [nyField, Nat.shiftRight_eq_div_pow]

theorem rsv1Field_toNat (w : Word) : (rsv1Field w).toNat = w.toNat / 16777216 := by
  have := w.isLt
  rw [rsv1Field, BitVec.extractLsb'_toNat, Nat.shiftRight_eq_div_pow]
  omega

theorem nxField_lt (w : Word) : nxField w < 256 := BitVec.isLt _

theorem nyField_lt (w : Word) : nyField w < 256 := BitVec.isLt _

/-- The six fields fill the word (30_encoding.md R90). -/
theorem word_ext {w w' : Word} (hop : opField w = opField w') (hu : uField w = uField w')
    (hrsv0 : rsv0Field w = rsv0Field w') (hnx : nxField w = nxField w') (hny : nyField w = nyField w')
    (hrsv1 : rsv1Field w = rsv1Field w') : w = w' := by
  apply BitVec.eq_of_toNat_eq
  have hop := congrArg BitVec.toNat hop
  have hu := congrArg Bool.toNat hu
  have hrsv0 := congrArg BitVec.toNat hrsv0
  have hrsv1 := congrArg BitVec.toNat hrsv1
  rw [opField_toNat, opField_toNat] at hop
  rw [uField_toNat, uField_toNat] at hu
  rw [rsv0Field_toNat, rsv0Field_toNat] at hrsv0
  rw [nxField_eq, nxField_eq] at hnx
  rw [nyField_eq, nyField_eq] at hny
  rw [rsv1Field_toNat, rsv1Field_toNat] at hrsv1
  omega

/-! ### The fields of an encoding (30_encoding.md R99) -/

theorem enc_eq_placeField (op : BitVec 5) (u : Bool) (nx ny : BitVec 8) :
    enc op u nx ny = placeField op 0 ||| placeField (BitVec.ofBool u) 5 ||| placeField nx 8 ||| placeField ny 16 := by
  simp [enc, placeField]

@[simp] theorem opField_enc (op : BitVec 5) (u : Bool) (nx ny : BitVec 8) : opField (enc op u nx ny) = op := by
  simp [opField, enc_eq_placeField, BitVec.extractLsb'_or, extract_placeField_same, extract_placeField_disjoint]

@[simp] theorem uField_enc (op : BitVec 5) (u : Bool) (nx ny : BitVec 8) : uField (enc op u nx ny) = u := by
  simp [uField, enc_eq_placeField, getElem_placeField]

@[simp] theorem nxField_enc (op : BitVec 5) (u : Bool) (nx ny : BitVec 8) : nxField (enc op u nx ny) = nx.toNat := by
  simp [nxField, enc_eq_placeField, BitVec.extractLsb'_or, extract_placeField_same, extract_placeField_disjoint]

@[simp] theorem nyField_enc (op : BitVec 5) (u : Bool) (nx ny : BitVec 8) : nyField (enc op u nx ny) = ny.toNat := by
  simp [nyField, enc_eq_placeField, BitVec.extractLsb'_or, extract_placeField_same, extract_placeField_disjoint]

@[simp] theorem rsv0Field_enc (op : BitVec 5) (u : Bool) (nx ny : BitVec 8) : rsv0Field (enc op u nx ny) = 0 :=
  (Laws.ReservedFieldsZero.of_enc op u nx ny).1

@[simp] theorem rsv1Field_enc (op : BitVec 5) (u : Bool) (nx ny : BitVec 8) : rsv1Field (enc op u nx ny) = 0 :=
  (Laws.ReservedFieldsZero.of_enc op u nx ny).2

/-- A word is the encoding of any values its fields hold, once the reserved fields are 0. -/
theorem enc_eq_of_fields {w : Word} {op : BitVec 5} {u : Bool} {nx ny : BitVec 8} (hop : opField w = op)
    (hu : uField w = u) (hnx : nxField w = nx.toNat) (hny : nyField w = ny.toNat) (hrsv0 : rsv0Field w = 0)
    (hrsv1 : rsv1Field w = 0) : enc op u nx ny = w := by
  apply word_ext <;> simp [*]

/-! ### The fields of a masked word -/

theorem opField_and (w m : Word) : opField (w &&& m) = opField w &&& opField m := BitVec.extractLsb'_and

theorem uField_and (w m : Word) : uField (w &&& m) = (uField w && uField m) := BitVec.getLsbD_and

theorem rsv0Field_and (w m : Word) : rsv0Field (w &&& m) = rsv0Field w &&& rsv0Field m := BitVec.extractLsb'_and

theorem rsv1Field_and (w m : Word) : rsv1Field (w &&& m) = rsv1Field w &&& rsv1Field m := BitVec.extractLsb'_and

theorem nxField_and (w m : Word) : nxField (w &&& m) = nxField w &&& nxField m := by
  rw [nxField, BitVec.extractLsb'_and, BitVec.toNat_and, nxField, nxField]

theorem nyField_and (w m : Word) : nyField (w &&& m) = nyField w &&& nyField m := by
  rw [nyField, BitVec.extractLsb'_and, BitVec.toNat_and, nyField, nyField]

/-! ### The opcode map by fields -/

/-- The row of `OP = op` fixes `U` (30_encoding.md R94). -/
def fixesU (op : Nat) : Bool := !(op == 4 || op == 5 || op == 6)

/-- The row of `OP = op` fixes `NX` (30_encoding.md R94). -/
def fixesNX (op : Nat) : Bool := op == 0 || op == 1

/-- The row of `OP = op` fixes `NY` (30_encoding.md R94). -/
def fixesNY (op : Nat) : Bool := !(op == 7 || op == 8)

/-- Every field of `w` that the row of `OP = op` fixes is 0 (30_encoding.md R97). -/
abbrev FixedFieldsZero (op : Nat) (w : Word) : Prop :=
  rsv0Field w = 0 ∧ rsv1Field w = 0 ∧ (fixesU op = true → uField w = false) ∧ (fixesNX op = true → nxField w = 0) ∧
    (fixesNY op = true → nyField w = 0)

/-- `w` has an `OP` of the opcode map and 0 in every field that row fixes (30_encoding.md R96, R97). -/
abbrev LegalFields (w : Word) : Prop :=
  (opField w).toNat < opcodeTable.length ∧ FixedFieldsZero (opField w).toNat w

theorem opcodeTable_length : opcodeTable.length = 9 := rfl

/-- Row `n` of the opcode map has match `n` and a mask over exactly the fields it fixes (30_encoding.md R94). -/
theorem opcodeTable_fields : ∀ n : Fin opcodeTable.length,
    opcodeTable[n].pattern = enc (BitVec.ofNat 5 n) false 0 0 ∧
    opField opcodeTable[n].mask = BitVec.allOnes 5 ∧ uField opcodeTable[n].mask = fixesU n ∧
    rsv0Field opcodeTable[n].mask = BitVec.allOnes 2 ∧ rsv1Field opcodeTable[n].mask = BitVec.allOnes 8 ∧
    nxField opcodeTable[n].mask = (if fixesNX n then 2 ^ 8 - 1 else 0) ∧
    nyField opcodeTable[n].mask = (if fixesNY n then 2 ^ 8 - 1 else 0) := by
  decide

/-- An 8-bit field under a mask that is all ones where the field is fixed: 0 exactly if the fixed field is 0. -/
theorem fixedMask_eq_zero_iff {x : Nat} (hx : x < 256) (fixed : Bool) :
    x &&& (if fixed then 2 ^ 8 - 1 else 0) = 0 ↔ (fixed = true → x = 0) := by
  cases fixed with
  | false => simp
  | true => rw [if_pos rfl, Nat.and_two_pow_sub_one_eq_mod, Nat.mod_eq_of_lt hx]; simp

/-- A row accepts a word exactly when `OP` is the row's place in the map and every field the row fixes is 0. -/
theorem accepts_iff {n : Nat} (hn : n < opcodeTable.length) (w : Word) :
    opcodeTable[n].accepts w = true ↔ (opField w).toNat = n ∧ FixedFieldsZero n w := by
  obtain ⟨hpattern, hop, hu, hrsv0, hrsv1, hnx, hny⟩ := opcodeTable_fields ⟨n, hn⟩
  simp only [Fin.getElem_fin] at hpattern hop hu hrsv0 hrsv1 hnx hny
  have hmasked_op : opField (w &&& opcodeTable[n].mask) = opField w := by rw [opField_and, hop, BitVec.and_allOnes]
  have hmasked_rsv0 : rsv0Field (w &&& opcodeTable[n].mask) = rsv0Field w := by
    rw [rsv0Field_and, hrsv0, BitVec.and_allOnes]
  have hmasked_rsv1 : rsv1Field (w &&& opcodeTable[n].mask) = rsv1Field w := by
    rw [rsv1Field_and, hrsv1, BitVec.and_allOnes]
  have hmasked_u : uField (w &&& opcodeTable[n].mask) = false ↔ (fixesU n = true → uField w = false) := by
    rw [uField_and, hu]; cases fixesU n <;> simp
  have hmasked_nx : nxField (w &&& opcodeTable[n].mask) = 0 ↔ (fixesNX n = true → nxField w = 0) := by
    rw [nxField_and, hnx, fixedMask_eq_zero_iff (nxField_lt w)]
  have hmasked_ny : nyField (w &&& opcodeTable[n].mask) = 0 ↔ (fixesNY n = true → nyField w = 0) := by
    rw [nyField_and, hny, fixedMask_eq_zero_iff (nyField_lt w)]
  have hop_iff : opField w = BitVec.ofNat 5 n ↔ (opField w).toNat = n := by
    have : n % 2 ^ 5 = n := Nat.mod_eq_of_lt (Nat.lt_trans hn (by decide))
    rw [← BitVec.toNat_inj, BitVec.toNat_ofNat, this]
  rw [FixedFieldsZero, ← hmasked_u, ← hmasked_nx, ← hmasked_ny, ← hmasked_rsv0, ← hmasked_rsv1, ← hop_iff, ← hmasked_op,
    Row.accepts, beq_iff_eq, hpattern]
  constructor
  · intro h
    simp [h]
  · rintro ⟨hop, hrsv0, hrsv1, hu, hnx, hny⟩
    exact (enc_eq_of_fields (nx := 0) (ny := 0) hop hu hnx hny hrsv0 hrsv1).symm

/-- Some row accepts a word exactly when its fields are legal, and it is the row at place `OP`. -/
theorem exists_accepts_iff (w : Word) : (∃ r ∈ opcodeTable, r.accepts w = true) ↔ LegalFields w := by
  constructor
  · rintro ⟨r, hr, h⟩
    obtain ⟨n, hn, rfl⟩ := List.getElem_of_mem hr
    obtain ⟨hop, hfix⟩ := (accepts_iff hn w).mp h
    rw [LegalFields, hop]
    exact ⟨hn, hfix⟩
  · rintro ⟨hn, hfix⟩
    exact ⟨_, List.getElem_mem hn, (accepts_iff hn w).mpr ⟨rfl, hfix⟩⟩

/-- No word matches two rows: the `OP` values differ (30_encoding.md R94). -/
theorem row_unique {r r' : Row} {w : Word} (hr : r ∈ opcodeTable) (hr' : r' ∈ opcodeTable)
    (h : r.accepts w = true) (h' : r'.accepts w = true) : r = r' := by
  obtain ⟨n, hn, rfl⟩ := List.getElem_of_mem hr
  obtain ⟨n', hn', rfl⟩ := List.getElem_of_mem hr'
  obtain ⟨hop, -⟩ := (accepts_iff hn w).mp h
  obtain ⟨hop', -⟩ := (accepts_iff hn' w).mp h'
  subst hop hop'
  rfl

/-! ### The decoder -/

/-- A word that row `n` accepts decodes to the command row `n` builds (30_encoding.md R95). -/
theorem decode_of_fields {n : Nat} (hn : n < opcodeTable.length) {w : Word} (hop : (opField w).toNat = n)
    (hfix : FixedFieldsZero n w) : decode w = .ok (opcodeTable[n].build w) := by
  have haccepts := (accepts_iff hn w).mpr ⟨hop, hfix⟩
  cases hfind : opcodeTable.find? (fun r => r.accepts w) with
  | none => exact absurd haccepts (List.find?_eq_none.mp hfind _ (List.getElem_mem hn))
  | some r =>
    have hrow : r = opcodeTable[n] :=
      row_unique (List.mem_of_find?_eq_some hfind) (List.getElem_mem hn) 
        (List.find?_some (p := fun r : Row => r.accepts w) hfind) haccepts
    rw [decode, hfind, hrow]

/-- A word without legal fields is rejected (30_encoding.md R95). -/
theorem decode_of_not_legalFields {w : Word} (h : ¬ LegalFields w) : decode w = .error (rejectReason w) := by
  have hfind : opcodeTable.find? (fun r => r.accepts w) = none :=
    List.find?_eq_none.mpr fun r hr haccepts => h ((exists_accepts_iff w).mp ⟨r, hr, haccepts⟩)
  rw [decode, hfind]

theorem decode_ok_iff (w : Word) (i : Instr) :
    decode w = .ok i ↔
      ∃ (n : Nat) (hn : n < opcodeTable.length), (opField w).toNat = n ∧ FixedFieldsZero n w ∧
        opcodeTable[n].build w = i := by
  constructor
  · intro h
    by_cases hw : LegalFields w
    · obtain ⟨hn, hfix⟩ := hw
      rw [decode_of_fields hn rfl hfix, Except.ok.injEq] at h
      exact ⟨_, hn, rfl, hfix, h⟩
    · rw [decode_of_not_legalFields hw] at h
      cases h
  · rintro ⟨n, hn, hop, hfix, rfl⟩
    exact decode_of_fields hn hop hfix

theorem decode_isOk_iff (w : Word) : (∃ i, decode w = .ok i) ↔ LegalFields w := by
  constructor
  · rintro ⟨i, h⟩
    obtain ⟨n, hn, rfl, hfix, -⟩ := (decode_ok_iff w i).mp h
    exact ⟨hn, hfix⟩
  · rintro ⟨hn, hfix⟩
    exact ⟨_, decode_of_fields hn rfl hfix⟩

theorem decode_isError_iff (w : Word) : (∃ r, decode w = .error r) ↔ ¬ LegalFields w := by
  rw [← decode_isOk_iff]
  cases decode w <;> simp

/-! ### The fields of a command

Every field the encoder places, 0 where the command's row fixes it (30_encoding.md R99). -/

/-- Field `OP` of the command's word: the place of its row in the opcode map. -/
def Instr.opcode (i : Instr) : Nat :=
  match i with
  | .nop => 0
  | .modinv => 1
  | .crtEnc _ => 2
  | .crtDec _ => 3
  | .mrDec _ _ => 4
  | .mrDecp _ _ => 5
  | .mrRec _ _ => 6
  | .addq _ _ => 7
  | .addqc _ _ => 8

/-- Field `U` of the command's word. -/
def Instr.uBit (i : Instr) : Bool :=
  match i with
  | .mrDec u _ | .mrDecp u _ | .mrRec u _ => u
  | .nop | .modinv | .crtEnc _ | .crtDec _ | .addq _ _ | .addqc _ _ => false

/-- Field `NX` of the command's word, as a count of any size. -/
def Instr.nx (i : Instr) : Nat :=
  match i with
  | .nop | .modinv => 0
  | .crtEnc k | .crtDec k | .mrDec _ k | .mrDecp _ k | .mrRec _ k => k
  | .addq nx _ | .addqc nx _ => nx

/-- Field `NY` of the command's word, as a count of any size. -/
def Instr.ny (i : Instr) : Nat :=
  match i with
  | .addq _ ny | .addqc _ ny => ny
  | .nop | .modinv | .crtEnc _ | .crtDec _ | .mrDec _ _ | .mrDecp _ _ | .mrRec _ _ => 0

theorem encode_eq_enc (i : Instr) :
    encode i = enc (BitVec.ofNat 5 i.opcode) i.uBit (BitVec.ofNat 8 i.nx) (BitVec.ofNat 8 i.ny) := by
  cases i <;> rfl

theorem wellFormed_iff (i : Instr) : i.wellFormed = true ↔ i.nx < 256 ∧ i.ny < 256 := by
  cases i <;> simp [Instr.wellFormed, lengthFits, Instr.nx, Instr.ny]

theorem opcode_lt (i : Instr) : i.opcode < opcodeTable.length := by
  cases i <;> simp [Instr.opcode, opcodeTable_length]

/-- A command has 0 in every field that its row fixes. -/
theorem fixed_operands (i : Instr) :
    (fixesU i.opcode = true → i.uBit = false) ∧ (fixesNX i.opcode = true → i.nx = 0) ∧
      (fixesNY i.opcode = true → i.ny = 0) := by
  cases i <;> simp [fixesU, fixesNX, fixesNY, Instr.opcode, Instr.uBit, Instr.nx, Instr.ny]

/-- The command's row builds it from any word that holds its operand fields. -/
theorem build_eq {i : Instr} {w : Word} (hu : uField w = i.uBit) (hnx : nxField w = i.nx) (hny : nyField w = i.ny) :
    (opcodeTable[i.opcode]'(opcode_lt i)).build w = i := by
  cases i with
  | nop | modinv => rfl
  | crtEnc k => exact congrArg Instr.crtEnc hnx
  | crtDec k => exact congrArg Instr.crtDec hnx
  | mrDec u k => exact congrArg₂ Instr.mrDec hu hnx
  | mrDecp u k => exact congrArg₂ Instr.mrDecp hu hnx
  | mrRec u n => exact congrArg₂ Instr.mrRec hu hnx
  | addq nx ny => exact congrArg₂ Instr.addq hnx hny
  | addqc nx ny => exact congrArg₂ Instr.addqc hnx hny

/-- The command a row builds has the fields of the word, once those the row fixes are 0. -/
theorem fields_build {n : Nat} (hn : n < opcodeTable.length) {w : Word} (hfix : FixedFieldsZero n w) :
    (opcodeTable[n].build w).opcode = n ∧ (opcodeTable[n].build w).uBit = uField w ∧
      (opcodeTable[n].build w).nx = nxField w ∧ (opcodeTable[n].build w).ny = nyField w := by
  obtain ⟨-, -, hu, hnx, hny⟩ := hfix
  rw [opcodeTable_length] at hn
  interval_cases n
  · exact ⟨rfl, (hu rfl).symm, (hnx rfl).symm, (hny rfl).symm⟩
  · exact ⟨rfl, (hu rfl).symm, (hnx rfl).symm, (hny rfl).symm⟩
  · exact ⟨rfl, (hu rfl).symm, rfl, (hny rfl).symm⟩
  · exact ⟨rfl, (hu rfl).symm, rfl, (hny rfl).symm⟩
  · exact ⟨rfl, rfl, rfl, (hny rfl).symm⟩
  · exact ⟨rfl, rfl, rfl, (hny rfl).symm⟩
  · exact ⟨rfl, rfl, rfl, (hny rfl).symm⟩
  · exact ⟨rfl, (hu rfl).symm, rfl, rfl⟩
  · exact ⟨rfl, (hu rfl).symm, rfl, rfl⟩

/-! ### The round trip -/

/-- Settles O2: the word holds the command's own fields, so `OP` finds its row and the row builds it. -/
theorem decodeOfEncode : Obligations.DecodeOfEncode := by
  intro i hi
  obtain ⟨hnx, hny⟩ := (wellFormed_iff i).mp hi
  obtain ⟨hfixU, hfixNX, hfixNY⟩ := fixed_operands i
  have hop : (opField (encode i)).toNat = i.opcode := by
    rw [encode_eq_enc, opField_enc, BitVec.toNat_ofNat, Nat.mod_eq_of_lt (Nat.lt_trans (opcode_lt i) (by decide))]
  have hu : uField (encode i) = i.uBit := by rw [encode_eq_enc, uField_enc]
  have hnx : nxField (encode i) = i.nx := by rw [encode_eq_enc, nxField_enc, BitVec.toNat_ofNat, Nat.mod_eq_of_lt hnx]
  have hny : nyField (encode i) = i.ny := by rw [encode_eq_enc, nyField_enc, BitVec.toNat_ofNat, Nat.mod_eq_of_lt hny]
  have hfix : FixedFieldsZero i.opcode (encode i) := by
    rw [FixedFieldsZero, hu, hnx, hny, encode_eq_enc]
    exact ⟨rsv0Field_enc .., rsv1Field_enc .., hfixU, hfixNX, hfixNY⟩
  rw [decode_of_fields (opcode_lt i) hop hfix, build_eq hu hnx hny]

/-- Settles O3: the row found builds a command with the word's own fields, and the six fields fill the word. -/
theorem encodeOfDecode : Obligations.EncodeOfDecode := by
  intro w i h
  obtain ⟨n, hn, hop, hfix, rfl⟩ := (decode_ok_iff w i).mp h
  obtain ⟨hopcode, hu, hnx, hny⟩ := fields_build hn hfix
  obtain ⟨hrsv0, hrsv1, -⟩ := hfix
  have hnx_lt := nxField_lt w
  have hny_lt := nyField_lt w
  constructor
  · rw [encode_eq_enc, hopcode, hu, hnx, hny]
    refine enc_eq_of_fields ?_ rfl ?_ ?_ hrsv0 hrsv1
    · rw [← hop, BitVec.ofNat_toNat, BitVec.setWidth_eq]
    · rw [BitVec.toNat_ofNat, Nat.mod_eq_of_lt hnx_lt]
    · rw [BitVec.toNat_ofNat, Nat.mod_eq_of_lt hny_lt]
  · rw [wellFormed_iff, hnx, hny]
    exact ⟨hnx_lt, hny_lt⟩

/-! ### The rows and the fields of the spec -/

/-- Settles O4: the rows written out are those of `opcodeTable`, and a row that matches is the one at place `OP`. -/
theorem decodeFindsTheUniqueRow : Obligations.DecodeFindsTheUniqueRow := by
  intro w rows
  have hrows : rows = opcodeTable.map fun r => (r.mask, r.pattern) := rfl
  have hmem (p : Word × Word) : p ∈ rows ∧ w &&& p.1 = p.2 ↔
      ∃ r ∈ opcodeTable, r.accepts w = true ∧ (r.mask, r.pattern) = p := by
    rw [hrows, List.mem_map]
    constructor
    · rintro ⟨⟨r, hr, rfl⟩, h⟩
      exact ⟨r, hr, beq_iff_eq.mpr h, rfl⟩
    · rintro ⟨r, hr, h, rfl⟩
      exact ⟨⟨r, hr, rfl⟩, beq_iff_eq.mp h⟩
  constructor
  · rw [decode_isOk_iff, ← exists_accepts_iff]
    simp only [hmem]
    constructor
    · rintro ⟨r, hr, h⟩
      exact ⟨_, r, hr, h, rfl⟩
    · rintro ⟨_, r, hr, h, -⟩
      exact ⟨r, hr, h⟩
  · intro p hp p' hp' h h'
    obtain ⟨r, hr, hacc, rfl⟩ := (hmem p).mp ⟨hp, h⟩
    obtain ⟨r', hr', hacc', rfl⟩ := (hmem p').mp ⟨hp', h'⟩
    rw [row_unique hr hr' hacc hacc']

/-- Only the word 0 decodes to `NOP`: the round trip leaves no other. -/
theorem decode_nop_iff (w : Word) : decode w = .ok .nop ↔ w = 0 := by
  constructor
  · intro h
    exact (encodeOfDecode w .nop h).1.symm
  · rintro rfl
    exact decodeOfEncode .nop rfl

/-- Settles O5: `decode_isError_iff`, with every field read by division. -/
theorem illegalExactlyByFields : Obligations.IllegalExactlyByFields := by
  refine ⟨fun w => ?_, decode_nop_iff⟩
  have hrsv0 : rsv0Field w = 0 ↔ w.toNat / 64 % 4 = 0 := by rw [← rsv0Field_toNat, ← BitVec.toNat_inj]; rfl
  have hrsv1 : rsv1Field w = 0 ↔ w.toNat / 16777216 = 0 := by rw [← rsv1Field_toNat, ← BitVec.toNat_inj]; rfl
  have hu : uField w = false ↔ w.toNat / 32 % 2 = 0 := by rw [← uField_toNat]; cases uField w <;> decide
  rw [decode_isError_iff, LegalFields, FixedFieldsZero, hrsv0, hrsv1, hu, nxField_eq, nyField_eq, opField_toNat,
    opcodeTable_length]
  simp only [fixesU, fixesNX, fixesNY, Bool.not_eq_true', Bool.or_eq_true, Bool.or_eq_false_iff, beq_iff_eq,
    beq_eq_false_iff_ne]
  omega

/-- Settles O1: the words are the encodings of well-formed commands, and the others have a field out of place. -/
theorem specEncodingsDecode : Obligations.SpecEncodingsDecode := by
  constructor
  · intro p hp
    obtain ⟨henc, hwf⟩ : encode p.1 = p.2 ∧ p.1.wellFormed = true := by
      revert p
      decide
    exact ⟨henc, henc ▸ decodeOfEncode p.1 hwf⟩
  · intro w hw
    apply (illegalExactlyByFields.1 w).mpr
    revert w
    simp

end Sys2Proof

/-! ## The digits of `DECOMP`, and the bits of `VAL`

What `DECOMP` answers, digit by digit, and that `HORNER` undoes it (42_mixed_radix.md R172, R177). For base 2 the digits are
the bits of the value (30_encoding.md R104). -/

namespace Sys2Proof.Machine

/-! ### `DECOMP` and `HORNER` -/

/-- A value below the product of the moduli does not overflow (42_mixed_radix.md R173). -/
theorem decomp_eq_some_of_lt {ms : List Nat} : ∀ {x : Nat}, x < ms.prod → ∃ d, decomp x ms = some d := by
  induction ms with
  | nil =>
    intro x h
    exact ⟨[], by simpa [decomp] using h⟩
  | cons m ms ih =>
    intro x h
    rw [decomp]
    split_ifs with hm
    · have hquot : (x - x % m) / m < ms.prod := by
        rw [← Nat.div_eq_sub_mod_div]
        exact Nat.div_lt_of_lt_mul (by rwa [List.prod_cons] at h)
      obtain ⟨d, hd⟩ := ih hquot
      exact ⟨x % m :: d, by rw [hd, Option.map_some]⟩
    · exact ⟨[x], rfl⟩

/-- Digit `i` is the remainder at position `i` of the value divided by the moduli below it; 0 where the digits have stopped
early (42_mixed_radix.md R172). -/
theorem decomp_getD {ms : List Nat} : ∀ {x : Nat} {d : List Nat}, decomp x ms = some d →
    ∀ {i : Nat} (h : i < ms.length), d.getD i 0 = x / (ms.take i).prod % ms[i] := by
  induction ms with
  | nil => intro x d _ i h; cases h
  | cons m ms ih =>
    intro x d h i hi
    rw [decomp] at h
    split_ifs at h with hm
    · obtain ⟨d', hd', rfl⟩ := Option.map_eq_some_iff.mp h
      rw [← Nat.div_eq_sub_mod_div] at hd'
      cases i with
      | zero => simp
      | succ i => simpa [Nat.div_div_eq_div_mul] using ih hd' (Nat.lt_of_succ_lt_succ hi)
    · obtain rfl : [x] = d := Option.some.inj h
      cases i with
      | zero => simp [Nat.mod_eq_of_lt (Nat.lt_of_not_le hm)]
      | succ i => simp [← Nat.div_div_eq_div_mul, Nat.div_eq_of_lt (Nat.lt_of_not_le hm)]

/-- Digits that are all 0 have the value 0. -/
theorem horner_replicate_zero (ms : List Nat) : ∀ n, horner (List.replicate n 0) ms = 0 := by
  induction ms with
  | nil => intro n; cases n <;> rfl
  | cons m ms ih =>
    intro n
    cases n with
    | zero => rfl
    | succ n => simp [List.replicate_succ, horner, ih]

/-- The digits of a value filled up with 0 to length `k` (42_mixed_radix.md R171). -/
def padded (k : Nat) (d : List Nat) : List Nat := d ++ List.replicate (k - d.length) 0

theorem padded_length {k : Nat} {d : List Nat} (h : d.length ≤ k) : (padded k d).length = k := by
  rw [padded, List.length_append, List.length_replicate, Nat.add_sub_of_le h]

theorem padded_getElem {k : Nat} {d : List Nat} {i : Nat} (h : i < (padded k d).length) :
    (padded k d)[i] = d.getD i 0 := by
  by_cases hi : i < d.length
  · simp [padded, hi]
  · simp [padded, hi, List.getElem_append_right (Nat.le_of_not_lt hi)]

/-- Reconstruction undoes decomposition, whatever 0 digits follow (42_mixed_radix.md R172, R177). -/
theorem horner_padded_decomp {ms : List Nat} : ∀ {x : Nat} {d : List Nat}, decomp x ms = some d →
    horner (padded ms.length d) ms = x := by
  induction ms with
  | nil =>
    intro x d h
    rw [decomp] at h
    split_ifs at h with hx
    rw [hx]
    cases padded 0 d <;> rfl
  | cons m ms ih =>
    intro x d h
    rw [decomp] at h
    split_ifs at h with hm
    · obtain ⟨d', hd', rfl⟩ := Option.map_eq_some_iff.mp h
      rw [← Nat.div_eq_sub_mod_div] at hd'
      have hpad : padded (ms.length + 1) (x % m :: d') = x % m :: padded ms.length d' := by simp [padded]
      rw [List.length_cons, hpad, horner, ih hd', Nat.div_add_mod']
    · obtain rfl : [x] = d := Option.some.inj h
      simp [padded, horner, horner_replicate_zero]

/-- The digits filled up with 0 are below their moduli (42_mixed_radix.md R174). -/
theorem padded_decomp_digitsBelow {ms d : List Nat} {x : Nat} (h : decomp x ms = some d) (hms : ∀ m ∈ ms, m ≠ 0) :
    DigitsBelow (padded ms.length d) ms := by
  intro p hp
  obtain ⟨i, hi, rfl⟩ := List.getElem_of_mem hp
  have hi' : i < ms.length := by simp at hi; omega
  rw [List.getElem_zip, padded_getElem, decomp_getD h hi']
  exact Nat.mod_lt _ (Nat.pos_of_ne_zero (hms _ (List.getElem_mem hi')))

/-! ### The stored digits -/

theorem storePadded_eq (s : State) (k : Nat) (d : List Nat) :
    storePadded s k d = { s with x := writeDigits s.x (padded k d) } := rfl

/-- Entry `i < k` of `X` holds digit `i`, or 0 where the digits have stopped early (42_mixed_radix.md R171). -/
theorem storePadded_x_getElem (s : State) {k : Nat} {d : List Nat} (hk : k ≤ 128) (hd : d.length ≤ k) {i : Nat}
    (hi : i < k) :
    (storePadded s k d).x[i] = BitVec.ofNat 16 (d.getD i 0) := by
  have hlen := padded_length hd
  simp only [storePadded_eq]
  rw [writeDigits_getElem _ _ (hlen.le.trans hk), dif_pos (hlen.symm ▸ hi), padded_getElem]

/-- No modulus in use exceeds an entry of a buffer. -/
theorem modulusSequence_lt (s : State) (u : Bool) (k : Nat) : ∀ m ∈ modulusSequence s u k, m < 2 ^ 16 := by
  cases u with
  | true =>
    intro m hm
    rw [List.eq_of_mem_replicate hm]
    exact s.qbase.isLt
  | false => exact digits_lt s.mod k

/-- The digits of a value under the moduli in use read back from `X` as they were stored. -/
theorem digits_storePadded {s : State} {u : Bool} {k x : Nat} {d : List Nat} (hk : k ≤ 128) (hm : ModuliNonzero s u k)
    (hd : decomp x (modulusSequence s u k) = some d) : digits (storePadded s k d).x k = padded k d := by
  have hmods := modulusSequence_length s u hk
  have hlen : (padded k d).length = k := padded_length (hmods ▸ decomp_length_le hd)
  have hfit : ∀ b ∈ padded k d, b < 2 ^ 16 := by
    intro b hb
    obtain ⟨i, hi, rfl⟩ := List.getElem_of_mem hb
    have hi' : i < (modulusSequence s u k).length := by omega
    rw [padded_getElem, decomp_getD hd hi']
    exact (Nat.mod_lt _ (Nat.pos_of_ne_zero (modulusSequence_ne_zero hm _ (List.getElem_mem hi')))).trans
      (modulusSequence_lt s u k _ (List.getElem_mem hi'))
  simpa only [hlen, storePadded_eq] using digits_writeDigits s.x (padded k d) (hlen.le.trans hk) hfit

/-! ### The commands with every check passed -/

/-- `MR.DECP` with every check passed stores the digits (42_mixed_radix.md R175). -/
theorem exec_mrDecp_ok {s : State} {u : Bool} {k : Nat} {d : List Nat} (hk : k ≤ 128) (hm : ModuliNonzero s u k)
    (hd : decomp s.val.toNat (modulusSequence s u k) = some d) :
    exec (.mrDecp u k) s = .next ((storePadded s k d).succeed k) := by
  have hplan : decompPlan s u k = .ok d := by simp [decompPlan, hk, mseq_ok hm, hd, bind, Except.bind]
  rw [exec, execMrDecp, hplan, State.conclude_ok]

/-- `MR.REC` with every check passed leaves the value of the digits in `VAL` (42_mixed_radix.md R178). -/
theorem exec_mrRec_ok {s : State} {u : Bool} {n x : Nat} (hn : n ≤ 128) (hm : ModuliNonzero s u n)
    (hd : DigitsBelow (digits s.x n) (modulusSequence s u n))
    (hv : horner (digits s.x n) (modulusSequence s u n) = x) (hx : x < 2 ^ 128) :
    exec (.mrRec u n) s = .next ({ s with val := BitVec.ofNat 128 x }.succeed 0) := by
  have hplan : recPlan s u n = .ok x := by
    simp [recPlan, hn, mseq_ok hm, checkDigits_ok false hd, hv, Nat.not_le.mpr hx, -Nat.reducePow, bind, Except.bind]
  rw [exec, execMrRec, hplan, State.conclude_ok]

/-- After the digits of a value are stored, `MR.REC` with the same moduli rebuilds it, whatever the report and `VAL`
(42_mixed_radix.md R180). -/
theorem exec_mrRec_storePadded {s : State} {u : Bool} {k : Nat} {d : List Nat} (v : Value) (r : Report) (hk : k ≤ 128)
    (hm : ModuliNonzero s u k) (hd : decomp s.val.toNat (modulusSequence s u k) = some d) :
    exec (.mrRec u k) { (storePadded s k d).complete r with val := v } =
      .next ({ (storePadded s k d).complete r with val := s.val }.succeed 0) := by
  have hmods := modulusSequence_length s u hk
  have hread := digits_storePadded hk hm hd
  have hbelow : DigitsBelow (digits (storePadded s k d).x k) (modulusSequence s u k) := by
    simpa only [hread, hmods] using padded_decomp_digitsBelow hd (modulusSequence_ne_zero hm)
  have hvalue : horner (digits (storePadded s k d).x k) (modulusSequence s u k) = s.val.toNat := by
    simpa only [hread, hmods] using horner_padded_decomp hd
  have h := exec_mrRec_ok (s := { (storePadded s k d).complete r with val := v }) hk hm hbelow hvalue s.val.isLt
  rwa [BitVec.ofNat_toNat, BitVec.setWidth_eq] at h

/-! ### Base 2 -/

/-- With `QBASE = 2` and `U = 1` every modulus is 2. -/
theorem modulusSequence_base_two {s : State} (hq : s.qbase = 2) (k : Nat) :
    modulusSequence s true k = List.replicate k 2 := by
  simp [modulusSequence, hq]

theorem moduliNonzero_base_two {s : State} (hq : s.qbase = 2) (k : Nat) : ModuliNonzero s true k := by
  simp [ModuliNonzero, hq]

/-- The base-2 digits of a value are its bits. -/
theorem decomp_base_two_getD {n x : Nat} {d : List Nat} (h : decomp x (List.replicate n 2) = some d) {i : Nat} (hi : i < n) :
    d.getD i 0 = (x.testBit i).toNat := by
  rw [decomp_getD h (by simpa using hi), Nat.toNat_testBit]
  simp [List.take_replicate, Nat.min_eq_left hi.le]

/-- Settles O46: 128 digits of base 2 hold every value, they are its bits, and `MR.REC` undoes `MR.DECP`. -/
theorem bitRoundTrip : Obligations.BitRoundTrip := by
  intro s v hq
  have hmods := modulusSequence_base_two hq 128
  have hnonzero := moduliNonzero_base_two hq 128
  obtain ⟨d, hd⟩ : ∃ d, decomp s.val.toNat (modulusSequence s true 128) = some d :=
    decomp_eq_some_of_lt (by rw [hmods, List.prod_replicate]; exact s.val.isLt)
  have hlen : d.length ≤ 128 := by simpa [hmods] using decomp_length_le hd
  refine ⟨_, exec_mrDecp_ok (le_refl 128) hnonzero hd, rfl, fun i hi => ?_,
    exec_mrRec_storePadded v _ (le_refl 128) hnonzero hd⟩
  rw [hmods] at hd
  rw [State.succeed_eq_complete, State.complete_x, storePadded_x_getElem s (le_refl 128) hlen hi,
    decomp_base_two_getD hd hi, BitVec.testBit_toNat]
  cases s.val.getLsbD i <;> rfl

end Sys2Proof.Machine

/-! ## The lifecycle of a command

The issue and the completion step as rules of `step`: what a write to `CMD` latches, which command the engine's turn runs,
and what it does with an illegal word or with none in flight (40_command.md R120 to R123). -/

namespace Sys2Proof.Machine

/-! ### The completion step -/

/-- A legal word is completed by the command it decodes to (40_command.md R121). -/
theorem completion_of_decode {s : State} {i : Instr} (h : decode s.cmd = .ok i) : s.completion = exec i s := by
  rw [State.completion, h]

/-- An illegal word is completed with `E_ILLEGAL`, whatever the decoder's reason (40_command.md R123). -/
theorem completion_of_illegal {s : State} {r : Reject} (h : decode s.cmd = .error r) :
    s.completion = .next s.illegalCommand := by
  rw [State.completion, h]

/-! ### The engine's turn -/

theorem engineTurn_of_busy {s : State} (hb : s.busy = true) : s.engineTurn = s.completion := by
  rw [State.engineTurn, if_pos hb]

theorem engineTurn_of_not_busy {s : State} (hb : s.busy = false) : s.engineTurn = .next s := by
  rw [State.engineTurn, if_neg (by simp [hb])]

theorem engineTurn_of_decode {s : State} {i : Instr} (hb : s.busy = true) (h : decode s.cmd = .ok i) :
    s.engineTurn = exec i s :=
  (engineTurn_of_busy hb).trans (completion_of_decode h)

theorem engineTurn_of_illegal {s : State} {r : Reject} (hb : s.busy = true) (h : decode s.cmd = .error r) :
    s.engineTurn = .next s.illegalCommand :=
  (engineTurn_of_busy hb).trans (completion_of_illegal h)

/-- The engine moves on its own turn (20_memory.md R72). -/
theorem step_engine_turn (s : State) (rest : List Turn) :
    step { s with agenda := .engine :: rest } = { s with agenda := rest }.engineTurn := rfl

/-- With no turn left the engine moves too (log entry 1). -/
theorem step_no_turn (s : State) : step { s with agenda := [] } = { s with agenda := [] }.engineTurn := rfl

/-- Settles O6: the engine's turn runs the decoded command while busy and nothing otherwise; a host turn is its access by
the definition of `step`. -/
theorem engineStepRunsDecodedCommand : Obligations.EngineStepRunsDecodedCommand := by
  refine ⟨fun s rest i hb _ hi => ?busy, fun s rest hb => ?idle, fun s rest a => rfl⟩
  case busy =>
    rw [step_engine_turn, step_no_turn]
    exact ⟨engineTurn_of_decode hb hi, engineTurn_of_decode hb hi⟩
  case idle =>
    rw [step_engine_turn, step_no_turn]
    exact ⟨engineTurn_of_not_busy hb, engineTurn_of_not_busy hb⟩

/-- Settles O8: every completion step ends in `State.complete`, which keeps `COLL`, `IE` and `CMD`. -/
theorem everyCommandCompletes : Obligations.EveryCommandCompletes := by
  intro s rest hb
  obtain ⟨v, x, r, hcompletion⟩ := completion_cases { s with agenda := rest }
  have hturn := engineTurn_of_busy (s := { s with agenda := rest }) hb
  exact ⟨_, (step_engine_turn s rest).trans (hturn.trans hcompletion), rfl, rfl, rfl, rfl, rfl⟩

/-- Settles O12: the completion of an illegal word is `State.illegalCommand`, a report and nothing else. -/
theorem illegalWordCompletesWithError : Obligations.IllegalWordCompletesWithError := fun s rest _ hb hr =>
  (step_engine_turn s rest).trans (engineTurn_of_illegal hb hr)

/-! ### The issue -/

/-- A write to `CMD` of an idle block issues the word (40_command.md R120). -/
theorem step_write_cmd_idle {s : State} (rest : List Turn) (w : Word) (hidle : s.busy = false) :
    step { s with agenda := .host (.write .word 0x010 w) :: rest } =
      .next { s.issue w with agenda := rest, reply := some .written } :=
  step_write_idle rest w hidle rfl (by decide)

/-- Settles O16: idle, the write is `State.issue`; busy, `CMD` is one of the registers that collide. -/
theorem issueLatchesTheCommand : Obligations.IssueLatchesTheCommand := by
  refine ⟨fun s rest w hidle => ⟨_, step_write_cmd_idle rest w hidle, rfl, ?_⟩,
    fun s rest w hb => ⟨_, step_write_colliding rest w hb rfl (by decide) rfl, rfl⟩⟩
  simp [State.irq]

/-! ### `NOP` -/

/-- From reset, `NOP` issued and completed leaves only `DONE` set (40_command.md R130). -/
theorem run_nop_from_reset :
    Sys2Proof.core.run 2 { State.reset with agenda := [.host (.write .word 0x010 0#32), .engine] } =
      .next { State.reset with done := true, reply := some .written } := by
  rw [core_run_succ (step_write_cmd_idle [.engine] 0#32 rfl), core_run_succ ((step_engine rfl rfl).trans
    (completion_of_decode ((decode_nop_iff _).mpr rfl)))]
  rfl

/-- Settles O26: a word with `OP = 0` that decodes is 0 (`decode_nop_iff`), as every other field of its row is fixed. -/
theorem nopReportsSuccess : Obligations.NopReportsSuccess := by
  refine ⟨fun s => rfl, decode_nop_iff, fun w hop hw => ?_, _, run_nop_from_reset, by decide, rfl⟩
  cases hdecode : decode w with
  | error r => exact ⟨r, rfl⟩
  | ok i =>
    obtain ⟨n, hn, hn', -, hbuild⟩ := (decode_ok_iff w i).mp hdecode
    obtain rfl : n = 0 := by rw [← hn', opField_toNat, hop]
    obtain rfl : i = .nop := hbuild.symm
    exact absurd ((decode_nop_iff w).mp hdecode) hw

end Sys2Proof.Machine

/-! ## Lengths out of range

The length check stands first in every body that has one, so what comes after it does not matter (40_command.md R124). -/

namespace Sys2Proof.Machine

/-- A body that begins with the length check fails there if a length exceeds 128, and its result is never stored. -/
theorem conclude_long_length {α : Type} {nx ny : Nat} (h : 128 < nx ∨ 128 < ny) (s : State)
    (body : Unit → Except Raise α) (store : State → α → State) :
    s.conclude (checkLengths nx ny >>= body) store = s.raise ⟨.length, 0, false⟩ := by
  rw [checkLengths_eq, if_neg (by omega)]
  rfl

/-- Settles O31: the body of each of these commands begins with the length check. -/
theorem longLengthsFail : Obligations.LongLengthsFail := by
  intro s u nx ny failed
  refine ⟨fun h => ⟨?crtEnc, ?crtDec, ?mrDec, ?mrDecp, ?mrRec⟩, fun h => ⟨?addq, ?addqc⟩⟩
  case crtEnc | crtDec | mrDec | mrDecp | mrRec => exact congrArg _ (conclude_long_length (ny := 0) (.inl h) s _ _)
  case addq | addqc => exact congrArg _ (conclude_long_length h s _ _)

end Sys2Proof.Machine

/-! ## The modular inverse

The points of Euclid's loop keep the congruences, the greatest common divisor and the bound on the coefficients that
41_modular_inverse.md R152 to R155 rest on. Its first exit then says what `INV` answers, and that is all that `MODINV`
reports. -/

namespace Sys2Proof.Machine

/-! ### What every iteration keeps -/

theorem natCast_mod_eq_sub (s t : Nat) : ((s % t : Nat) : Int) = s - (s / t : Nat) * t := by
  rw [Int.natCast_mod, Int.emod_def, Int.natCast_div, mul_comm]

/-- Each coefficient times `a` is congruent to its member of the working pair (41_modular_inverse.md R152). -/
theorem euclidAt_modEq (a m n : Nat) :
    (euclidAt a m n).x1 * a ≡ (euclidAt a m n).s [ZMOD m] ∧ (euclidAt a m n).x0 * a ≡ (euclidAt a m n).t [ZMOD m] := by
  induction n with
  | zero => simp [Int.ModEq]
  | succ n ih =>
    obtain ⟨h1, h0⟩ := ih
    refine ⟨h0, ?_⟩
    rw [euclidAt_succ_x0, euclidAt_succ_t, natCast_mod_eq_sub, sub_mul, mul_assoc]
    exact h1.sub (h0.mul_left _)

/-- The working pair follows Euclid's remainder sequence (41_modular_inverse.md R153). -/
theorem euclidAt_gcd (a m n : Nat) : Nat.gcd (euclidAt a m n).s (euclidAt a m n).t = Nat.gcd a m := by
  induction n with
  | zero => rfl
  | succ n ih => rw [← ih, euclidAt_succ_s, euclidAt_succ_t, Nat.gcd_comm, ← Nat.gcd_rec, Nat.gcd_comm]

/-- The two coefficients are never of the same sign (41_modular_inverse.md R154). -/
theorem euclidAt_signs (a m n : Nat) :
    (0 ≤ (euclidAt a m n).x1 ∧ (euclidAt a m n).x0 ≤ 0) ∨ ((euclidAt a m n).x1 ≤ 0 ∧ 0 ≤ (euclidAt a m n).x0) := by
  induction n with
  | zero => simp
  | succ n ih =>
    have hq : (0 : Int) ≤ ((euclidAt a m n).s / (euclidAt a m n).t : Nat) := Int.natCast_nonneg _
    rw [euclidAt_succ_x1, euclidAt_succ_x0]
    rcases ih with ⟨h1, h0⟩ | ⟨h1, h0⟩
    · exact .inr ⟨h0, sub_nonneg.mpr ((mul_nonpos_of_nonneg_of_nonpos hq h0).trans h1)⟩
    · exact .inl ⟨h0, sub_nonpos.mpr (h1.trans (mul_nonneg hq h0))⟩

/-- The coefficients have opposite signs, so the new one is as large as the two parts it is made of. -/
theorem euclidAt_abs_x0_succ (a m n : Nat) : |(euclidAt a m (n + 1)).x0| =
    |(euclidAt a m n).x1| + ((euclidAt a m n).s / (euclidAt a m n).t : Nat) * |(euclidAt a m n).x0| := by
  have hq : (0 : Int) ≤ ((euclidAt a m n).s / (euclidAt a m n).t : Nat) := Int.natCast_nonneg _
  rw [euclidAt_succ_x0]
  rcases euclidAt_signs a m n with ⟨h1, h0⟩ | ⟨h1, h0⟩
  · have hnew := sub_nonneg.mpr ((mul_nonpos_of_nonneg_of_nonpos hq h0).trans h1)
    rw [abs_of_nonneg hnew, abs_of_nonneg h1, abs_of_nonpos h0]
    ring
  · have hnew := sub_nonpos.mpr (h1.trans (mul_nonneg hq h0))
    rw [abs_of_nonpos hnew, abs_of_nonpos h1, abs_of_nonneg h0]
    ring

/-- The bound on the coefficients (41_modular_inverse.md R154), as an equation that every iteration keeps. -/
theorem euclidAt_abs_sum (a m n : Nat) : |(euclidAt a m n).x0| * (euclidAt a m n).s +
    |(euclidAt a m n).x1| * (euclidAt a m n).t = (m : Int) := by
  induction n with
  | zero => simp
  | succ n ih =>
    rw [euclidAt_abs_x0_succ, euclidAt_succ_x1, euclidAt_succ_s, euclidAt_succ_t, natCast_mod_eq_sub, ← ih]
    ring

/-! ### The exit of the loop -/

/-- The loop goes through its first `n` iterations and stands at one of its own exits after them
(41_modular_inverse.md R150). -/
abbrev ExitsAfter (a m n : Nat) : Prop :=
  (∀ k < n, 1 < (euclidAt a m k).s ∧ (euclidAt a m k).t ≠ 0) ∧ ((euclidAt a m n).s ≤ 1 ∨ (euclidAt a m n).t = 0)

/-- Each iteration lowers `t`, which starts at `m` (41_modular_inverse.md R155). -/
theorem euclidAt_t_add_le {a m n : Nat} (h : ∀ k < n, (euclidAt a m k).t ≠ 0) : (euclidAt a m n).t + n ≤ m := by
  induction n with
  | zero => simp
  | succ n ih =>
    have hlt := Nat.mod_lt (euclidAt a m n).s (Nat.pos_of_ne_zero (h n n.lt_succ_self))
    have hle := ih fun k hk => h k (hk.trans n.lt_succ_self)
    rw [euclidAt_succ_t]
    omega

/-- The loop leaves within `m` iterations, by `t = 0` at the latest (41_modular_inverse.md R155). -/
theorem exists_exitsAfter (a m : Nat) : ∃ n ≤ m, ExitsAfter a m n := by
  have hex : ∃ n, (euclidAt a m n).s ≤ 1 ∨ (euclidAt a m n).t = 0 := by
    by_contra! hnone
    exact absurd (euclidAt_t_add_le fun k _ => (hnone k).2) (show ¬ (euclidAt a m (m + 1)).t + (m + 1) ≤ m by omega)
  have hfirst : ∀ k < Nat.find hex, 1 < (euclidAt a m k).s ∧ (euclidAt a m k).t ≠ 0 := fun k hk => by
    simpa using Nat.find_min hex hk
  exact ⟨_, (Nat.le_add_left _ _).trans (euclidAt_t_add_le fun k hk => (hfirst k hk).2), hfirst, Nat.find_spec hex⟩

/-- The model's loop from a point of Euclid's loop. -/
abbrev EuclidPoint.loop (fuel : Nat) (p : EuclidPoint) : Option Int := invLoop fuel p.s p.t p.x0 p.x1

/-- Short of an exit the loop takes one iteration of Euclid's loop (41_modular_inverse.md R150). -/
theorem loop_euclidAt_succ {a m n : Nat} (fuel : Nat) (hs : 1 < (euclidAt a m n).s) (ht : (euclidAt a m n).t ≠ 0) :
    (euclidAt a m n).loop (fuel + 1) = (euclidAt a m (n + 1)).loop fuel := by
  rw [EuclidPoint.loop, invLoop, if_pos hs, if_neg ht]
  rfl

/-- At an exit the loop answers the coefficient where `s = 1`, and fails otherwise (41_modular_inverse.md R150). -/
theorem loop_at_exit {p : EuclidPoint} (fuel : Nat) (h : p.s ≤ 1 ∨ p.t = 0) :
    p.loop (fuel + 1) = if p.s = 1 then some p.x1 else none := by
  rw [EuclidPoint.loop, invLoop]
  rcases Nat.lt_trichotomy p.s 1 with hs | hs | hs
  · simp [Nat.lt_one_iff.mp hs]
  · simp [hs]
  · simp [hs, hs.ne', h.resolve_left (Nat.not_le.mpr hs)]

/-- The first iterations are those of Euclid's loop (41_modular_inverse.md R150). -/
theorem invLoop_add {a m n : Nat} (fuel : Nat) (h : ∀ k < n, 1 < (euclidAt a m k).s ∧ (euclidAt a m k).t ≠ 0) :
    invLoop (fuel + n) a m 0 1 = (euclidAt a m n).loop fuel := by
  induction n generalizing fuel with
  | zero => rfl
  | succ n ih =>
    obtain ⟨hs, ht⟩ := h n n.lt_succ_self
    rw [show fuel + (n + 1) = fuel + 1 + n by omega, ih _ fun k hk => h k (hk.trans n.lt_succ_self),
      loop_euclidAt_succ fuel hs ht]

/-- With a bound above the number of iterations the loop answers what its exit gives (log entry 9). -/
theorem invLoop_of_exitsAfter {a m n fuel : Nat} (h : ExitsAfter a m n) (hfuel : n < fuel) :
    invLoop fuel a m 0 1 = if (euclidAt a m n).s = 1 then some (euclidAt a m n).x1 else none := by
  obtain ⟨hbefore, hexit⟩ := h
  obtain ⟨d, rfl⟩ := Nat.exists_eq_add_of_lt hfuel
  rw [show n + d + 1 = d + 1 + n by omega, invLoop_add _ hbefore, loop_at_exit d hexit]

/-- Settles O30: `t` falls from `m` to 0, so an exit comes within `m` iterations. -/
theorem inverseLoopBoundNeverReached : Obligations.InverseLoopBoundNeverReached := by
  intro a m
  obtain ⟨n, hn, hexit⟩ := exists_exitsAfter a m
  exact ⟨n, hn.trans (le_max_right a m), hexit.1, hexit.2, fun fuel => invLoop_of_exitsAfter hexit⟩

/-! ### What `INV` answers -/

/-- The loop ends with `s = 1` exactly for coprime operands (41_modular_inverse.md R152, R153). -/
theorem exit_s_eq_one_iff {a m n : Nat} (hm : 2 ≤ m) (h : ExitsAfter a m n) :
    (euclidAt a m n).s = 1 ↔ Nat.gcd a m = 1 := by
  obtain ⟨hbefore, hexit⟩ := h
  have hgcd := euclidAt_gcd a m n
  refine ⟨fun hs => by rw [← hgcd, hs, Nat.gcd_one_left], fun hco => ?_⟩
  rcases hexit with hs | ht
  · by_contra hne
    have hs0 : (euclidAt a m n).s = 0 := by omega
    cases n with
    | zero =>
      rw [hs0, Nat.gcd_zero_left, hco] at hgcd
      exact absurd hgcd (show m ≠ 1 by omega)
    | succ k => exact (hbefore k k.lt_succ_self).2 hs0
  · rw [← hco, ← hgcd, ht, Nat.gcd_zero_right]

/-- At the exit the coefficient is below the modulus (41_modular_inverse.md R152): the point before it has `s ≥ 2`. -/
theorem exit_abs_x1_lt {a m n : Nat} (hm : 2 ≤ m) (h : ExitsAfter a m n) : |(euclidAt a m n).x1| < (m : Int) := by
  cases n with
  | zero => simpa using (by omega : 1 < m)
  | succ k =>
    have hs : (2 : Int) ≤ (euclidAt a m k).s := by exact_mod_cast (h.1 k k.lt_succ_self).1
    have hsum := euclidAt_abs_sum a m k
    have hrest : 0 ≤ |(euclidAt a m k).x1| * ((euclidAt a m k).t : Int) := by positivity
    have htwice := mul_le_mul_of_nonneg_left hs (abs_nonneg (euclidAt a m k).x0)
    rw [euclidAt_succ_x1]
    omega

/-- A negative coefficient "normalized by adding `m`" is the coefficient's residue (41_modular_inverse.md R150). -/
theorem normalize_eq_emod {x m : Int} (h : |x| < m) : (if x < 0 then x + m else x) = x % m := by
  obtain ⟨hlo, hhi⟩ := abs_lt.mp h
  split_ifs with hx
  · rw [← Int.add_emod_right, Int.emod_eq_of_lt (by omega) (by omega)]
  · rw [Int.emod_eq_of_lt (by omega) hhi]

/-- `INV` for `m ≥ 2`, by the loop's exit (41_modular_inverse.md R150). -/
theorem inv_of_exitsAfter {a m n : Nat} (hm : 2 ≤ m) (hn : n ≤ m) (h : ExitsAfter a m n) :
    inv a m = if (euclidAt a m n).s = 1 then .ok ((euclidAt a m n).x1 % m).toNat else .error .noInv := by
  rw [inv, if_neg (by omega), if_neg (by omega), invLoop_of_exitsAfter h (by omega)]
  split_ifs with hs
  · simp only [normalize_eq_emod (exit_abs_x1_lt hm h)]
  · rfl

/-- Without an inverse the loop leaves with `s = 0`, or with `t = 0` and `s > 1` (41_modular_inverse.md R153). -/
theorem inv_of_not_coprime {a m : Nat} (hm : 2 ≤ m) (h : Nat.gcd a m ≠ 1) : inv a m = .error .noInv := by
  obtain ⟨n, hn, hexit⟩ := exists_exitsAfter a m
  rw [inv_of_exitsAfter hm hn hexit, if_neg ((exit_s_eq_one_iff hm hexit).not.mpr h)]

/-- The coefficient at the exit is an inverse, and its residue the answer (41_modular_inverse.md R152). -/
theorem inv_of_coprime {a m : Nat} (hm : 2 ≤ m) (h : Nat.gcd a m = 1) :
    ∃ r, inv a m = .ok r ∧ r < m ∧ a * r % m = 1 := by
  obtain ⟨n, hn, hexit⟩ := exists_exitsAfter a m
  have hs := (exit_s_eq_one_iff hm hexit).mpr h
  have hm0 : (m : Int) ≠ 0 := by omega
  have hr := Int.toNat_of_nonneg (Int.emod_nonneg (euclidAt a m n).x1 hm0)
  refine ⟨_, by rw [inv_of_exitsAfter hm hn hexit, if_pos hs], ?below, ?inverse⟩
  case below =>
    have := Int.emod_lt_of_pos (euclidAt a m n).x1 (show (0 : Int) < m by omega)
    omega
  case inverse =>
    have hmod : ((euclidAt a m n).x1 % m * a : Int) ≡ 1 [ZMOD m] := by
      simpa [hs] using ((Int.mod_modEq _ _).mul_right _).trans (euclidAt_modEq a m n).1
    rw [← hr, mul_comm] at hmod
    have hnat : a * ((euclidAt a m n).x1 % m).toNat ≡ 1 [MOD m] := by exact_mod_cast hmod
    rwa [Nat.ModEq, Nat.mod_eq_of_lt (show 1 < m by omega)] at hnat

/-- At most one value below `m` is an inverse of `a` (41_modular_inverse.md R152). -/
theorem inverse_unique {a m r r' : Nat} (hco : Nat.gcd a m = 1) (hr : r < m) (hinv : a * r % m = 1) (hr' : r' < m)
    (hinv' : a * r' % m = 1) : r' = r := by
  have hprod : a * r' ≡ a * r [MOD m] := hinv'.trans hinv.symm
  exact (hprod.cancel_left_of_coprime (by rwa [Nat.gcd_comm])).eq_of_lt_of_lt hr' hr

/-- `INV` answers any inverse below the modulus that is known. -/
theorem inv_eq_of_mul_mod_eq_one {a m r : Nat} (hm : 2 ≤ m) (hr : r < m) (hinv : a * r % m = 1) : inv a m = .ok r := by
  have hco : Nat.gcd a m = 1 := Nat.coprime_of_mul_modEq_one r <| by
    rw [Nat.ModEq, hinv, Nat.mod_eq_of_lt (show 1 < m by omega)]
  obtain ⟨r', hok, hr', hinv'⟩ := inv_of_coprime hm hco
  rw [hok, inverse_unique hco hr hinv hr' hinv']

/-! ### `MODINV` -/

/-- `MODINV` stores what `INV` answers (41_modular_inverse.md R151). -/
theorem exec_modinv_ok {s : State} {r : Nat} (h : inv s.opa.toNat s.opm.toNat = .ok r) :
    exec .modinv s = .next ({ s with val := BitVec.ofNat 128 r }.succeed 0) := by
  rw [exec, execModinv, modinvPlan, h, State.conclude_ok]

/-- `MODINV` takes the error `INV` answers, at position 0 (41_modular_inverse.md R151). -/
theorem exec_modinv_error {s : State} {e : ErrCode} (h : inv s.opa.toNat s.opm.toNat = .error e) :
    exec .modinv s = .next (s.raise ⟨e, 0, false⟩) := by
  rw [exec, execModinv, modinvPlan, h, State.conclude_error]

/-- Settles O27: the coefficient at the loop's exit is the inverse, and `MODINV` stores it. -/
theorem modinvFindsTheInverse : Obligations.ModinvFindsTheInverse := by
  refine ⟨fun a m hm hco => ?_, fun s hm hco => ?_⟩
  · obtain ⟨r, hok, hr, hinv⟩ := inv_of_coprime hm hco
    exact ⟨r, hok, hr, hinv, fun r' => inverse_unique hco hr hinv⟩
  · obtain ⟨r, hok, hr, hinv⟩ := inv_of_coprime hm hco
    exact ⟨r, hr, hinv, exec_modinv_ok hok⟩

/-- Settles O28: the loop's exit has `s = 1` exactly for coprime operands. -/
theorem modinvFailsExactlyWithoutInverse : Obligations.ModinvFailsExactlyWithoutInverse := by
  refine ⟨fun a m hm => ⟨fun hfail hco => ?_, inv_of_not_coprime hm⟩,
    fun s hm hco => exec_modinv_error (inv_of_not_coprime hm hco)⟩
  obtain ⟨r, hok, -, -⟩ := inv_of_coprime hm hco
  rw [hok] at hfail
  cases hfail

/-- `m − 1` is its own inverse modulo `m` (41_modular_inverse.md R151). -/
theorem pred_mul_pred_mod {a m : Nat} (hm : 2 ≤ m) (h : a + 1 = m) : a * a % m = 1 := by
  obtain ⟨b, rfl⟩ : ∃ b, a = b + 1 := ⟨a - 1, by omega⟩
  rw [← h, show (b + 1) * (b + 1) = 1 + (b + 1 + 1) * b by ring, Nat.add_mul_mod_self_left, Nat.mod_eq_of_lt (by omega)]

/-- Settles O29: moduli 0 and 1 are `INV`'s first two tests; 1 and `OPM − 1` are their own inverses. -/
theorem modinvCornerCases : Obligations.ModinvCornerCases := by
  refine fun s => ⟨fun hm => ?zero, fun hm => ?one, fun hm ha => ?unit, fun hm ha => ?pred⟩
  case zero => exact exec_modinv_error (e := .modulus) (by rw [inv, if_pos hm])
  case one => exact exec_modinv_ok (r := 0) (by rw [inv, if_neg (by omega), if_pos hm])
  case unit =>
    refine exec_modinv_ok (inv_eq_of_mul_mod_eq_one hm hm ?_)
    rw [ha, one_mul, Nat.mod_eq_of_lt hm]
  case pred =>
    rw [exec_modinv_ok (inv_eq_of_mul_mod_eq_one hm (by omega) (pred_mul_pred_mod hm ha)), BitVec.ofNat_toNat,
      BitVec.setWidth_eq]
    rfl

end Sys2Proof.Machine

/-! ## Checks that fail

A command's body stops at its first failing check, which is the one reported (40_command.md R125): a zero modulus
(42_mixed_radix.md R170, 44_crt.md R220) or a digit not below its modulus (42_mixed_radix.md R178, 44_crt.md R226), each at
its lowest position. -/

namespace Sys2Proof.Machine

/-! ### A body as a sequence of checks -/

/-- A check that passes hands its answer to the rest of the body. -/
theorem conclude_bind_ok {α β : Type} {check : Except Raise β} {b : β} (h : check = .ok b) (s : State)
    (body : β → Except Raise α) (store : State → α → State) :
    s.conclude (check >>= body) store = s.conclude (body b) store := by
  rw [h]
  rfl

/-- A check that fails is the failure of the body, whatever would come after it. -/
theorem conclude_bind_error {α β : Type} {check : Except Raise β} {r : Raise} (h : check = .error r) (s : State)
    (body : β → Except Raise α) (store : State → α → State) :
    s.conclude (check >>= body) store = s.raise r := by
  rw [h]
  rfl

theorem checkLengths_ok {k : Nat} (hk : k ≤ 128) : checkLengths k 0 = .ok () := by
  rw [checkLengths_eq, if_pos ⟨hk, Nat.zero_le _⟩]

/-- No failure of a body reports success (60_exceptions.md R240). -/
theorem Raise.code_ne_zero_of_legal {r : Raise} (h : r.Legal) : r.code.code ≠ 0 := by
  rcases h with ⟨h, -⟩ | ⟨h, -⟩ | h | ⟨h, -⟩ | ⟨h, -⟩ <;> simp [h, ErrCode.code]

/-! ### Zero moduli -/

/-- The lowest zero entry of a buffer of moduli is the one reported (42_mixed_radix.md R170, 44_crt.md R220). -/
theorem checkModuli_digits_error {b : Buffer} {k i : Nat} (hi : i < 128) (hik : i < k) (h0 : b[i] = 0)
    (hlow : ∀ j (hj : j < 128), j < i → b[j] ≠ 0) : checkModuli (digits b k) = .error ⟨.modulus, i, false⟩ := by
  have hlen : i < (digits b k).length := by rw [digits_length]; omega
  refine checkModuli_error hlen (by rw [digits_getElem, h0]; rfl) fun j hj => ?_
  rw [digits_getElem]
  exact fun h => hlow j (by omega) hj (BitVec.eq_of_toNat_eq h)

theorem mseq_moduli_error {s : State} {k : Nat} {r : Raise} (h : checkModuli (digits s.mod k) = .error r) :
    mseq s false k = .error r := by
  simp [mseq, modulusSequence, h, Except.map]

theorem mseq_base_error {s : State} (k : Nat) (hq : s.qbase = 0) : mseq s true k = .error ⟨.modulus, 0, false⟩ := by
  simp [mseq, hq, Except.map]

/-- Settles O32: the check of the moduli comes second in each of these bodies, after that of the length. -/
theorem zeroModulusFails : Obligations.ZeroModulusFails := by
  intro s k hk
  have hlength := checkLengths_ok hk
  refine ⟨fun i hi hik h0 hlow => ?moduli, fun hq => ?base⟩
  case moduli =>
    have hmod := checkModuli_digits_error hi hik h0 hlow
    have hseq := mseq_moduli_error hmod
    refine ⟨?crtEnc, ?crtDec, ?mrDec, ?mrDecp, ?mrRec⟩
    case crtEnc | crtDec =>
      exact congrArg _ ((conclude_bind_ok hlength s _ _).trans (conclude_bind_error hmod s _ _))
    case mrDec | mrDecp | mrRec =>
      exact congrArg _ ((conclude_bind_ok hlength s _ _).trans (conclude_bind_error hseq s _ _))
  case base =>
    have hseq := mseq_base_error k hq
    refine ⟨?mrDec, ?mrDecp, ?mrRec⟩
    case mrDec | mrDecp | mrRec =>
      exact congrArg _ ((conclude_bind_ok hlength s _ _).trans (conclude_bind_error hseq s _ _))

/-! ### Digits out of range -/

/-- The lowest entry of a buffer of digits that is not below its modulus is the one reported (42_mixed_radix.md R178,
44_crt.md R226). -/
theorem checkDigits_digits_error {b : Buffer} {ms : List Nat} {k i : Nat} (hi : i < 128) (hik : i < k)
    (hms : i < ms.length) (hge : ms[i] ≤ b[i].toNat) (hlow : ∀ j (hj : j < i), b[j].toNat < ms[j]) :
    checkDigits (digits b k) ms false = .error ⟨.digit, i, false⟩ := by
  have hlen : i < (digits b k).length := by rw [digits_length]; omega
  refine checkDigits_error false hlen hms (by rwa [digits_getElem]) fun j hj => ?_
  rw [digits_getElem]
  exact hlow j hj

/-- `MR.REC` with length and moduli in order reports the digit at fault (42_mixed_radix.md R178). -/
theorem exec_mrRec_digit_error {s : State} {u : Bool} {n : Nat} {r : Raise} (hn : n ≤ 128) (hm : ModuliNonzero s u n)
    (h : checkDigits (digits s.x n) (modulusSequence s u n) false = .error r) :
    exec (.mrRec u n) s = .next (s.raise r) :=
  congrArg _ ((conclude_bind_ok (checkLengths_ok hn) s _ _).trans
    ((conclude_bind_ok (mseq_ok hm) s _ _).trans (conclude_bind_error h s _ _)))

/-- `CRT.DEC` with length and moduli in order reports the digit at fault (44_crt.md R226). -/
theorem exec_crtDec_digit_error {s : State} {k : Nat} {r : Raise} (hk : k ≤ 128) (hm : ∀ m ∈ digits s.mod k, m ≠ 0)
    (h : checkDigits (digits s.x k) (digits s.mod k) false = .error r) : exec (.crtDec k) s = .next (s.raise r) :=
  congrArg _ ((conclude_bind_ok (checkLengths_ok hk) s _ _).trans
    ((conclude_bind_ok (checkModuli_ok hm) s _ _).trans (conclude_bind_error h s _ _)))

/-- Settles O33: `CRT.DEC` and `MR.REC` with `U = 0` check the same digits against the same moduli. -/
theorem digitOutOfRangeFails : Obligations.DigitOutOfRangeFails := by
  intro s k hk i hi hik
  refine ⟨fun hm hge hlow => ?moduli, fun hq hge hlow => ?base⟩
  case moduli =>
    have hcheck : checkDigits (digits s.x k) (digits s.mod k) false = .error ⟨.digit, i, false⟩ :=
      checkDigits_digits_error hi hik (by rw [digits_length]; omega) (by rwa [digits_getElem]) fun j hj => by
        rw [digits_getElem]
        exact hlow j (by omega) hj
    exact ⟨exec_crtDec_digit_error hk hm hcheck, exec_mrRec_digit_error (u := false) hk hm hcheck⟩
  case base =>
    have hcheck : checkDigits (digits s.x k) (List.replicate k s.qbase.toNat) false = .error ⟨.digit, i, false⟩ :=
      checkDigits_digits_error hi hik (by rwa [List.length_replicate]) (by rwa [List.getElem_replicate]) fun j hj => by
        rw [List.getElem_replicate]
        exact hlow j (by omega) hj
    have hm : ModuliNonzero s true k := fun h => hq (BitVec.eq_of_toNat_eq h)
    exact exec_mrRec_digit_error (u := true) hk hm hcheck

end Sys2Proof.Machine

/-! ## The mixed-radix codec

When `DECOMP` overflows and what its natural length is, `HORNER` as the value of a digit vector, and with these what
`MR.DEC`, `MR.DECP` and `MR.REC` leave in `X` and `VAL` (42_mixed_radix.md R171 to R180). -/

namespace Sys2Proof.Machine

/-! ### `HORNER` is the value of the digits -/

/-- The terms summed from position 0 upward with weight `w` are Horner's value times `w` (42_mixed_radix.md R177). -/
theorem digitValueFrom_eq (ds : List Nat) : ∀ (w : Nat) (ms : List Nat), digitValueFrom w ds ms = horner ds ms * w := by
  induction ds with
  | nil => intro w ms; simp [digitValueFrom, horner]
  | cons d ds ih =>
    intro w ms
    cases ms with
    | nil => simp [digitValueFrom, horner]
    | cons m ms =>
      rw [digitValueFrom, horner, ih]
      ring

theorem horner_eq_digitValue (ds ms : List Nat) : horner ds ms = digitValue ds ms := by
  rw [digitValue, digitValueFrom_eq, Nat.mul_one]

/-- The top modulus meets an accumulator that is still 0 (42_mixed_radix.md R177). -/
theorem horner_top_modulus (d m m' : Nat) (ds : List Nat) : ∀ ms : List Nat, ds.length = ms.length →
    horner (ds ++ [d]) (ms ++ [m]) = horner (ds ++ [d]) (ms ++ [m']) := by
  induction ds with
  | nil =>
    intro ms h
    obtain rfl := List.length_eq_zero_iff.mp h.symm
    simp [horner]
  | cons e ds ih =>
    intro ms h
    cases ms with
    | nil => cases h
    | cons n ms => simp only [List.cons_append, horner, ih ms (Nat.succ.inj h)]

/-- Settles O43: both sums agree with any weight, and the first step of Horner's scheme multiplies 0. -/
theorem hornerIsTheDigitValue : Obligations.HornerIsTheDigitValue :=
  ⟨fun ds ms _ => horner_eq_digitValue ds ms, fun ds ms d m m' h => horner_top_modulus d m m' ds ms h⟩

/-! ### `MR.REC` -/

/-- `MR.REC` with every check passed fails where the value does not fit `VAL` (42_mixed_radix.md R178). -/
theorem exec_mrRec_overflow {s : State} {u : Bool} {n : Nat} (hn : n ≤ 128) (hm : ModuliNonzero s u n)
    (hd : DigitsBelow (digits s.x n) (modulusSequence s u n))
    (hv : 2 ^ 128 ≤ horner (digits s.x n) (modulusSequence s u n)) :
    exec (.mrRec u n) s = .next (s.raise ⟨.overflow, 0, false⟩) := by
  have hplan : recPlan s u n = .error ⟨.overflow, 0, false⟩ := by
    simp [recPlan, hn, mseq_ok hm, checkDigits_ok false hd, hv, -Nat.reducePow, bind, Except.bind]
  rw [exec, execMrRec, hplan, State.conclude_error]

/-- Settles O44: with the checks passed, `HORNER` is the value of the digits, and only its size decides. -/
theorem reconstructRebuildsTheValue : Obligations.ReconstructRebuildsTheValue := by
  intro s u n hn hm hd
  have hvalue := horner_eq_digitValue (digits s.x n) (modulusSequence s u n)
  exact ⟨exec_mrRec_ok hn hm hd hvalue, fun hbig => exec_mrRec_overflow hn hm hd (hvalue ▸ hbig)⟩

/-! ### When `DECOMP` overflows, and its natural length -/

/-- A value with digits is below the product of the moduli (42_mixed_radix.md R173). -/
theorem lt_prod_of_decomp {ms : List Nat} (hms : ∀ m ∈ ms, m ≠ 0) : ∀ {x : Nat} {d : List Nat},
    decomp x ms = some d → x < ms.prod := by
  induction ms with
  | nil =>
    intro x d h
    rw [decomp] at h
    split_ifs at h with hx
    simp [hx]
  | cons m ms ih =>
    intro x d h
    obtain ⟨hm, hms⟩ := List.forall_mem_cons.mp hms
    rw [List.prod_cons]
    rw [decomp] at h
    split_ifs at h with hmx
    · obtain ⟨d', hd', -⟩ := Option.map_eq_some_iff.mp h
      rw [← Nat.div_eq_sub_mod_div] at hd'
      rw [Nat.mul_comm]
      exact (Nat.div_lt_iff_lt_mul (Nat.pos_of_ne_zero hm)).mp (ih hms hd')
    · have hpos : 0 < ms.prod := List.prod_pos fun n hn => Nat.pos_of_ne_zero (hms n hn)
      exact (Nat.lt_of_not_le hmx).trans_le (Nat.le_mul_of_pos_right m hpos)

theorem decomp_eq_none_iff {ms : List Nat} (hms : ∀ m ∈ ms, m ≠ 0) (x : Nat) : decomp x ms = none ↔ ms.prod ≤ x := by
  constructor
  · intro h
    by_contra hlt
    obtain ⟨d, hd⟩ := decomp_eq_some_of_lt (Nat.lt_of_not_le hlt)
    rw [hd] at h
    cases h
  · intro h
    rw [Option.eq_none_iff_forall_ne_some]
    intro d hd
    exact absurd (lt_prod_of_decomp hms hd) (Nat.not_lt.mpr h)

/-- 0 has the one digit 0, and none where there is no position for it (42_mixed_radix.md R172). -/
theorem decomp_zero_length {ms d : List Nat} (hms : ∀ m ∈ ms, m ≠ 0) (h : decomp 0 ms = some d) :
    d.length = min 1 ms.length := by
  cases ms with
  | nil =>
    obtain rfl : [] = d := Option.some.inj h
    rfl
  | cons m ms =>
    have hm : ¬ m ≤ 0 := by simpa using hms m List.mem_cons_self
    rw [decomp, if_neg hm] at h
    obtain rfl : [0] = d := Option.some.inj h
    simp

/-- The most significant digit of a nonzero value is not 0 (42_mixed_radix.md R172). -/
theorem decomp_top_digit_ne_zero {ms : List Nat} (hms : ∀ m ∈ ms, m ≠ 0) : ∀ {x : Nat} {d : List Nat},
    decomp x ms = some d → x ≠ 0 → 0 < d.length ∧ d.getD (d.length - 1) 0 ≠ 0 := by
  induction ms with
  | nil =>
    intro x d h hx
    rw [decomp, if_neg hx] at h
    cases h
  | cons m ms ih =>
    intro x d h hx
    obtain ⟨hm, hms⟩ := List.forall_mem_cons.mp hms
    rw [decomp] at h
    split_ifs at h with hmx
    · obtain ⟨d', hd', rfl⟩ := Option.map_eq_some_iff.mp h
      rw [← Nat.div_eq_sub_mod_div] at hd'
      obtain ⟨hlen, htop⟩ := ih hms hd' (Nat.div_pos hmx (Nat.pos_of_ne_zero hm)).ne'
      have hsucc : d'.length = d'.length - 1 + 1 := (Nat.sub_add_cancel hlen).symm
      refine ⟨Nat.succ_pos _, ?_⟩
      rwa [List.length_cons, Nat.add_sub_cancel, hsucc, List.getD_cons_succ]
    · obtain rfl : [x] = d := Option.some.inj h
      exact ⟨Nat.one_pos, hx⟩

/-- The positions from the natural length on have no part in the decomposition (42_mixed_radix.md R172). -/
theorem decomp_take {ms : List Nat} : ∀ {x n : Nat} {d : List Nat}, decomp x ms = some d → d.length ≤ n →
    decomp x (ms.take n) = some d := by
  induction ms with
  | nil =>
    intro x n d h _
    rwa [List.take_nil]
  | cons m ms ih =>
    intro x n d h hn
    rw [decomp] at h
    split_ifs at h with hm
    · obtain ⟨d', hd', rfl⟩ := Option.map_eq_some_iff.mp h
      cases n with
      | zero => cases hn
      | succ n => rw [List.take_succ_cons, decomp, if_pos hm, ih hd' (Nat.le_of_succ_le_succ hn), Option.map_some]
    · obtain rfl : [x] = d := Option.some.inj h
      cases n with
      | zero => cases hn
      | succ n => rw [List.take_succ_cons, decomp, if_neg hm]

/-! ### `MR.DEC` and `MR.DECP` -/

/-- `MR.DEC` with every check passed stores the digits and reports their natural length (42_mixed_radix.md R171). -/
theorem exec_mrDec_ok {s : State} {u : Bool} {k : Nat} {d : List Nat} (hk : k ≤ 128) (hm : ModuliNonzero s u k)
    (hd : decomp s.val.toNat (modulusSequence s u k) = some d) :
    exec (.mrDec u k) s = .next ((storePadded s k d).succeed d.length) := by
  have hplan : decompPlan s u k = .ok d := by simp [decompPlan, hk, mseq_ok hm, hd, bind, Except.bind]
  rw [exec, execMrDec, hplan, State.conclude_ok]

/-- All that `MR.DEC` and `MR.DECP` can do: store the same digits with their two lengths, or take the same failure
(42_mixed_radix.md R176). -/
theorem exec_decompose_cases (s : State) (u : Bool) (k : Nat) :
    (∃ d, decomp s.val.toNat (modulusSequence s u k) = some d ∧ d.length ≤ k ∧ k ≤ 128 ∧ ModuliNonzero s u k ∧
      exec (.mrDec u k) s = .next ((storePadded s k d).succeed d.length) ∧
      exec (.mrDecp u k) s = .next ((storePadded s k d).succeed k)) ∨
    (∃ r : Raise, r.Legal ∧ exec (.mrDec u k) s = .next (s.raise r) ∧ exec (.mrDecp u k) s = .next (s.raise r)) := by
  rcases decompPlan_cases s u k with ⟨d, -, hd, hlen, hk, hm⟩ | ⟨r, hplan, hr, -⟩
  · exact .inl ⟨d, hd, hlen, hk, hm, exec_mrDec_ok hk hm hd, exec_mrDecp_ok hk hm hd⟩
  · exact .inr ⟨r, hr, by rw [exec, execMrDec, hplan, State.conclude_error],
      by rw [exec, execMrDecp, hplan, State.conclude_error]⟩

/-- A value that does not fit fails both commands, and `X` is kept (42_mixed_radix.md R173). -/
theorem exec_decompose_overflow {s : State} {u : Bool} {k : Nat} (hk : k ≤ 128) (hm : ModuliNonzero s u k)
    (hbig : (modulusSequence s u k).prod ≤ s.val.toNat) :
    exec (.mrDec u k) s = .next (s.raise ⟨.overflow, 0, false⟩) ∧
    exec (.mrDecp u k) s = .next (s.raise ⟨.overflow, 0, false⟩) := by
  have hnone := (decomp_eq_none_iff (modulusSequence_ne_zero hm) _).mpr hbig
  have hplan : decompPlan s u k = .error ⟨.overflow, 0, false⟩ := by
    simp [decompPlan, hk, mseq_ok hm, hnone, bind, Except.bind]
  exact ⟨by rw [exec, execMrDec, hplan, State.conclude_error], by rw [exec, execMrDecp, hplan, State.conclude_error]⟩

/-- Settles O41: digits exist exactly below the product, and without them both commands fail. -/
theorem decomposeOverflowsExactly : Obligations.DecomposeOverflowsExactly :=
  ⟨fun x _ hms => decomp_eq_none_iff hms x, fun _ _ _ hk hm hbig => exec_decompose_overflow hk hm hbig⟩

/-- From one state the two commands differ only in `RLEN` (42_mixed_radix.md R176). -/
theorem exec_decompose_differ_in_rlen (s : State) (u : Bool) (k : Nat) :
    ∃ t t', exec (.mrDec u k) s = .next t ∧ exec (.mrDecp u k) s = .next t' ∧ t' = { t with rlen := t'.rlen } := by
  rcases exec_decompose_cases s u k with ⟨d, -, -, -, -, hdec, hdecp⟩ | ⟨r, -, hdec, hdecp⟩
  · exact ⟨_, _, hdec, hdecp, rfl⟩
  · exact ⟨_, _, hdec, hdecp, rfl⟩

/-- Settles O42: `MR.DEC` answers the same on operands that agree (`exec_sameResult`), and `MR.DECP` on the second state
differs from it in `RLEN` only. -/
theorem decomposeVariantsDifferOnlyInLength : Obligations.DecomposeVariantsDifferOnlyInLength := by
  refine ⟨fun s s' u k hv hq hm => ?_, exec_decompose_differ_in_rlen⟩
  have hreads : agreeOnReads (.mrDec u k) s s' := by
    cases u with
    | true => exact ⟨hv, hq⟩
    | false => exact ⟨hv, fun i hi _ => by rw [hm]⟩
  obtain ⟨t, t₁, ht, ht₁, ⟨-, -, hcode, hidx, hy, -⟩, -, hx⟩ := exec_sameResult (.mrDec u k) hreads
  obtain ⟨t₂, t', ht₂, ht', hdiff⟩ := exec_decompose_differ_in_rlen s' u k
  obtain rfl : t₁ = t₂ := Host.Outcome.next.inj (ht₁.symm.trans ht₂)
  refine ⟨t, t', ht, ht', ?_⟩
  rw [hdiff]
  exact ⟨hcode, hidx, hy, fun h0 => hx (.inl h0)⟩

/-! ### The digits in `X` -/

theorem padded_take {n k : Nat} {d : List Nat} (hd : d.length ≤ n) (hn : n ≤ k) : (padded k d).take n = padded n d := by
  rw [padded, padded, List.take_append, List.take_of_length_le hd, List.take_replicate,
    Nat.min_eq_left (Nat.sub_le_sub_right hn _)]

/-- A shorter length uses the first of the moduli (42_mixed_radix.md R170). -/
theorem modulusSequence_take (s : State) (u : Bool) {n k : Nat} (hn : n ≤ k) :
    (modulusSequence s u k).take n = modulusSequence s u n := by
  cases u with
  | true => simp [modulusSequence, List.take_replicate, hn]
  | false => exact digits_take s.mod hn

theorem ModuliNonzero.of_le {s : State} {u : Bool} {n k : Nat} (hn : n ≤ k) (h : ModuliNonzero s u k) :
    ModuliNonzero s u n := by
  cases u with
  | true => exact h
  | false => exact fun m hm => h m (List.mem_of_mem_take (by rwa [digits_take s.mod hn]))

/-- Any part of the digits left in `X` that holds the natural length has the value they were taken from and is well-formed
(42_mixed_radix.md R174). -/
theorem storePadded_value {s : State} {u : Bool} {k n x : Nat} {d : List Nat} (hk : k ≤ 128) (hm : ModuliNonzero s u k)
    (hd : decomp x (modulusSequence s u k) = some d) (hdn : d.length ≤ n) (hn : n ≤ k) :
    digitValue (digits (storePadded s k d).x n) (modulusSequence s u n) = x ∧
    DigitsBelow (digits (storePadded s k d).x n) (modulusSequence s u n) := by
  have hmods := modulusSequence_length s u (hn.trans hk)
  have hnonzero := modulusSequence_ne_zero (ModuliNonzero.of_le hn hm)
  have hread : digits (storePadded s k d).x n = padded n d := by
    rw [← digits_take _ hn, digits_storePadded hk hm hd, padded_take hdn hn]
  have hd' : decomp x (modulusSequence s u n) = some d := by
    rw [← modulusSequence_take s u hn]
    exact decomp_take hd hdn
  rw [hread, ← horner_eq_digitValue]
  exact ⟨by simpa only [hmods] using horner_padded_decomp hd',
    by simpa only [hmods] using padded_decomp_digitsBelow hd' hnonzero⟩

/-- Entry `i < k` of `X` holds digit `i` without loss. -/
theorem storePadded_x_toNat {s : State} {u : Bool} {k x : Nat} {d : List Nat} (hk : k ≤ 128) (hm : ModuliNonzero s u k)
    (hd : decomp x (modulusSequence s u k) = some d) {i : Nat} (hi : i < k) :
    (storePadded s k d).x[i].toNat = d.getD i 0 := by
  have hlen : i < (digits (storePadded s k d).x k).length := by rw [digits_length]; omega
  rw [← digits_getElem _ k i hlen, ← padded_getElem (by rwa [digits_storePadded hk hm hd] at hlen)]
  simp only [digits_storePadded hk hm hd]

/-- Entries from `k` on are kept (42_mixed_radix.md R171). -/
theorem storePadded_agreeFrom (s : State) {k : Nat} {d : List Nat} (hk : k ≤ 128) (hd : d.length ≤ k) :
    agreeFrom k (storePadded s k d).x s.x := by
  have hlen := padded_length hd
  simpa only [hlen, storePadded_eq] using writeDigits_agreeFrom s.x (padded k d) (hlen.le.trans hk)

/-- Settles O40: the digits of `DECOMP` are stored over the whole length, and their number is the natural length. -/
theorem decomposeWritesTheDigits : Obligations.DecomposeWritesTheDigits := by
  refine ⟨fun s u k hk hm hfit => ?fits, fun s t u k hexec h0 => ?succeeds⟩
  case fits =>
    obtain ⟨d, hd⟩ := decomp_eq_some_of_lt hfit
    have hmods := modulusSequence_length s u hk
    have hlen : d.length ≤ k := hmods ▸ decomp_length_le hd
    have hnonzero := modulusSequence_ne_zero hm
    obtain ⟨hvalue, hbelow⟩ := storePadded_value hk hm hd hlen le_rfl
    refine ⟨_, d.length, exec_mrDec_ok hk hm hd, exec_mrDecp_ok hk hm hd, hvalue, hbelow,
      storePadded_agreeFrom s hk hlen, hlen, fun i _ hn hi => ?zeros, fun hv => ?zeroLength,
      fun hv => ?topDigit⟩
    case zeros =>
      rw [storePadded_x_getElem s hk hlen hi, List.getD_eq_default _ _ hn]
      rfl
    case zeroLength =>
      rw [← hmods]
      exact decomp_zero_length hnonzero (by rwa [hv] at hd)
    case topDigit =>
      obtain ⟨hpos, htop⟩ := decomp_top_digit_ne_zero hnonzero hd fun h => hv (BitVec.eq_of_toNat_eq h)
      refine ⟨by omega, hpos, fun h => htop ?_⟩
      rw [← storePadded_x_toNat hk hm hd (by omega), h]
      rfl
  case succeeds =>
    rcases exec_decompose_cases s u k with ⟨d, hd, hlen, hk, hm, hdec, hdecp⟩ | ⟨r, hr, hdec, hdecp⟩
    · rw [hdec, hdecp] at hexec
      rcases hexec with hexec | hexec <;> cases hexec <;> exact storePadded_value hk hm hd hlen le_rfl
    · rw [hdec, hdecp, or_self] at hexec
      cases hexec
      exact absurd h0 (Raise.code_ne_zero_of_legal hr)

/-! ### The round trip -/

/-- `MR.REC` rebuilds a value from any part of its stored digits that holds the natural length (42_mixed_radix.md R180). -/
theorem exec_mrRec_stored {s : State} {u : Bool} {k n : Nat} {d : List Nat} (v : Value) (r : Report) (hk : k ≤ 128)
    (hm : ModuliNonzero s u k) (hd : decomp s.val.toNat (modulusSequence s u k) = some d) (hdn : d.length ≤ n)
    (hn : n ≤ k) :
    exec (.mrRec u n) { (storePadded s k d).complete r with val := v } =
      .next ({ (storePadded s k d).complete r with val := s.val }.succeed 0) := by
  obtain ⟨hvalue, hbelow⟩ := storePadded_value hk hm hd hdn hn
  have h := exec_mrRec_ok (s := { (storePadded s k d).complete r with val := v }) (hn.trans hk)
    (ModuliNonzero.of_le hn hm) hbelow ((horner_eq_digitValue _ _).trans hvalue) s.val.isLt
  rwa [BitVec.ofNat_toNat, BitVec.setWidth_eq] at h

/-- Settles O45: both lengths hold all digits of `VAL`, and a failed decomposition reports a code. -/
theorem mixedRadixRoundTrip : Obligations.MixedRadixRoundTrip := by
  intro s t t' u k n v hdec hdecp h0 hn
  rcases exec_decompose_cases s u k with ⟨d, hd, hlen, hk, hm, ht, ht'⟩ | ⟨r, hr, ht, ht'⟩
  · obtain rfl := Host.Outcome.next.inj (hdec.symm.trans ht)
    obtain rfl := Host.Outcome.next.inj (hdecp.symm.trans ht')
    have hrlen : (BitVec.ofNat 8 d.length).toNat = d.length := by
      rw [BitVec.toNat_ofNat, Nat.mod_eq_of_lt (by omega)]
    obtain ⟨hdn, hnk⟩ : d.length ≤ n ∧ n ≤ k := by
      rcases hn with rfl | rfl
      · exact ⟨hlen, le_rfl⟩
      · exact ⟨hrlen.ge, hrlen.le.trans hlen⟩
    exact ⟨rfl, rfl, exec_mrRec_stored v _ hk hm hd hdn hnk, exec_mrRec_stored v _ hk hm hd hdn hnk⟩
  · obtain rfl := Host.Outcome.next.inj (hdec.symm.trans ht)
    obtain rfl := Host.Outcome.next.inj (hdecp.symm.trans ht')
    exact absurd (h0.elim id id) (Raise.code_ne_zero_of_legal hr)

end Sys2Proof.Machine

/-! ## The base-q adder

The checks of `ADDQ` and `ADDQC` in their order (43_base_q_adder.md R200, R205), and what the carry adder leaves: digits
below the base that, with the carry out, make the sum up, so that they are the sum modulo the power of the base (R203, R204,
R207). -/

namespace Sys2Proof.Machine

/-! ### The checks in their order -/

theorem checkOrder_ok {nx ny : Nat} (h : ny ≤ nx) : checkOrder nx ny = .ok () := if_neg (Nat.not_lt.mpr h)

theorem checkOrder_error {nx ny : Nat} (h : nx < ny) : checkOrder nx ny = .error ⟨.length, 0, false⟩ := if_pos h

theorem digit_toNat_ne_zero {q : Digit} (h : q ≠ 0) : q.toNat ≠ 0 := fun h0 => h (BitVec.eq_of_toNat_eq h0)

/-- Digits are checked against as many copies of the base (43_base_q_adder.md R200). -/
theorem digitsBelow_replicate_iff {ds : List Nat} {n : Nat} (q : Nat) (h : ds.length ≤ n) :
    DigitsBelow ds (List.replicate n q) ↔ ∀ d ∈ ds, d < q := by
  constructor
  · intro hbelow d hd
    obtain ⟨i, hi, rfl⟩ := List.getElem_of_mem hd
    have hlen : i < (ds.zip (List.replicate n q)).length := by simp; omega
    simpa using hbelow _ (List.getElem_mem hlen)
  · intro hbelow p hp
    obtain ⟨hd, hq⟩ := List.of_mem_zip hp
    rw [List.eq_of_mem_replicate hq]
    exact hbelow _ hd

theorem digitsBelow_base {b : Buffer} {n q : Nat} (h : ∀ j (_ : j < 128), j < n → b[j].toNat < q) :
    DigitsBelow (digits b n) (List.replicate n q) := by
  rw [digitsBelow_replicate_iff _ (by simp), forall_mem_digits]
  exact h

/-- The lowest entry that is not below the base is the one reported, in the buffer it was found in (43_base_q_adder.md
R200). -/
theorem checkDigits_base_error {b : Buffer} {n i q : Nat} (inY : Bool) (hi : i < 128) (hin : i < n)
    (hge : q ≤ b[i].toNat) (hlow : ∀ j (_ : j < 128), j < i → b[j].toNat < q) :
    checkDigits (digits b n) (List.replicate n q) inY = .error ⟨.digit, i, inY⟩ := by
  refine checkDigits_error inY (by rw [digits_length]; omega) (by rwa [List.length_replicate]) ?_ fun j hj => ?_
  · rwa [List.getElem_replicate, digits_getElem]
  · rw [List.getElem_replicate, digits_getElem]
    exact hlow j (by omega) hj

section Addends

variable {s : State} {nx ny : Nat}

theorem checkAddends_base_error (hq : s.qbase = 0) : checkAddends s nx ny = .error ⟨.modulus, 0, false⟩ := by
  rw [checkAddends, hq]
  rfl

theorem checkAddends_x_error {r : Raise} (hq : s.qbase.toNat ≠ 0)
    (hx : checkDigits (digits s.x nx) (List.replicate nx s.qbase.toNat) false = .error r) :
    checkAddends s nx ny = .error r := by
  rw [checkAddends, checkBase_ok hq, hx]
  rfl

/-- `Y` is checked once the base and `X` are in order, and its check is the last (43_base_q_adder.md R200). -/
theorem checkAddends_eq_checkDigits_y (hq : s.qbase.toNat ≠ 0)
    (hx : DigitsBelow (digits s.x nx) (List.replicate nx s.qbase.toNat)) :
    checkAddends s nx ny = checkDigits (digits s.y ny) (List.replicate ny s.qbase.toNat) true := by
  rw [checkAddends, checkBase_ok hq, checkDigits_ok false hx]
  rfl

/-- The addends' check passes exactly where base and digits are in order (43_base_q_adder.md R200). -/
theorem checkAddends_ok_iff : checkAddends s nx ny = .ok () ↔ s.qbase.toNat ≠ 0 ∧
    DigitsBelow (digits s.x nx) (List.replicate nx s.qbase.toNat) ∧
    DigitsBelow (digits s.y ny) (List.replicate ny s.qbase.toNat) := by
  constructor
  · intro h
    rcases checkAddends_cases s nx ny with ⟨-, hinOrder⟩ | ⟨r, herr, -⟩
    · exact hinOrder
    · cases h.symm.trans herr
  · rintro ⟨hq, hx, hy⟩
    exact (checkAddends_eq_checkDigits_y hq hx).trans (checkDigits_ok true hy)

theorem checkLengths_both_ok (hnx : nx ≤ 128) (hny : ny ≤ 128) : checkLengths nx ny = .ok () := by
  rw [checkLengths_eq, if_pos ⟨hnx, hny⟩]

/-- `ADDQ` with lengths in order reports the failure that its addends' check finds (43_base_q_adder.md R200). -/
theorem exec_addq_addends_error {r : Raise} (hnx : nx ≤ 128) (hle : ny ≤ nx) (h : checkAddends s nx ny = .error r) :
    exec (.addq nx ny) s = .next (s.raise r) :=
  congrArg _ ((conclude_bind_ok (checkLengths_both_ok hnx (hle.trans hnx)) s _ _).trans
    ((conclude_bind_ok (checkOrder_ok hle) s _ _).trans (conclude_bind_error h s _ _)))

/-- `ADDQC` with lengths in range reports the failure that its addends' check finds (43_base_q_adder.md R205). -/
theorem exec_addqc_addends_error {r : Raise} (hnx : nx ≤ 128) (hny : ny ≤ 128) (h : checkAddends s nx ny = .error r) :
    exec (.addqc nx ny) s = .next (s.raise r) :=
  congrArg _ ((conclude_bind_ok (checkLengths_both_ok hnx hny) s _ _).trans (conclude_bind_error h s _ _))

/-- Both commands make the same checks on their addends once the lengths are in order (43_base_q_adder.md R205). -/
theorem exec_adders_addends_error {r : Raise} (hnx : nx ≤ 128) (hny : ny ≤ 128) (h : checkAddends s nx ny = .error r) :
    (ny ≤ nx → exec (.addq nx ny) s = .next (s.raise r)) ∧ exec (.addqc nx ny) s = .next (s.raise r) :=
  ⟨fun hle => exec_addq_addends_error hnx hle h, exec_addqc_addends_error hnx hny h⟩

/-- A long length fails before the order of the lengths is looked at, with the same report (43_base_q_adder.md R200). -/
theorem exec_addq_order_error (h : nx < ny) : exec (.addq nx ny) s = .next (s.raise ⟨.length, 0, false⟩) := by
  by_cases hlong : 128 < nx ∨ 128 < ny
  · exact congrArg _ (conclude_long_length hlong s _ _)
  · exact congrArg _ ((conclude_bind_ok (checkLengths_both_ok (by omega) (by omega)) s _ _).trans
      (conclude_bind_error (checkOrder_error h) s _ _))

/-- `ADDQ` with every check passed stores the sum (43_base_q_adder.md R201). -/
theorem exec_addq_ok (hnx : nx ≤ 128) (hle : ny ≤ nx) (h : checkAddends s nx ny = .ok ()) :
    exec (.addq nx ny) s =
      .next (storeSum s nx (carryAdd s.qbase.toNat false (digits s.x nx) (digits s.y ny))) :=
  congrArg _ ((conclude_bind_ok (checkLengths_both_ok hnx (hle.trans hnx)) s _ _).trans
    ((conclude_bind_ok (checkOrder_ok hle) s _ _).trans (conclude_bind_ok h s _ _)))

end Addends

/-- Settles O34: the checks of lengths, base, `X` and `Y`, each reached once those before it have passed. -/
theorem adderChecksInOrder : Obligations.AdderChecksInOrder := by
  intro s nx ny failed
  refine ⟨fun h => ⟨?addqLong, ?addqcLong⟩, exec_addq_order_error, fun hnx hny => ⟨?base, ?digitX, ?digitY⟩⟩
  case addqLong | addqcLong => exact congrArg _ (conclude_long_length h s _ _)
  case base => exact fun hq => exec_adders_addends_error hnx hny (checkAddends_base_error hq)
  case digitX =>
    intro hq i hi hin hge hlow
    exact exec_adders_addends_error hnx hny
      (checkAddends_x_error (digit_toNat_ne_zero hq) (checkDigits_base_error false hi hin hge hlow))
  case digitY =>
    intro hq hx i hi hin hge hlow
    exact exec_adders_addends_error hnx hny
      ((checkAddends_eq_checkDigits_y (digit_toNat_ne_zero hq) (digitsBelow_base hx)).trans
        (checkDigits_base_error true hi hin hge hlow))

/-! ### The carry adder -/

theorem ripple_cons (q t : Nat) (ts : List Nat) : ripple q true (t :: ts) =
    ((carryDigit q (t + 1)).1 :: (ripple q (carryDigit q (t + 1)).2 ts).1, (ripple q (carryDigit q (t + 1)).2 ts).2) := rfl

theorem carryAdd_nil (q : Nat) (c : Bool) (ts : List Nat) : carryAdd q c ts [] = ripple q c ts := by
  cases ts <;> rfl

theorem carryAdd_cons (q : Nat) (c : Bool) (t u : Nat) (ts us : List Nat) : carryAdd q c (t :: ts) (u :: us) =
    ((carryDigit q (t + u + c.toNat)).1 :: (carryAdd q (carryDigit q (t + u + c.toNat)).2 ts us).1,
      (carryAdd q (carryDigit q (t + u + c.toNat)).2 ts us).2) := rfl

/-- The digit left and the carry make the sum up (43_base_q_adder.md R202). -/
theorem carryDigit_value (q t : Nat) : (carryDigit q t).1 + q * (carryDigit q t).2.toNat = t := by
  rcases Nat.lt_or_ge t q with h | h
  · simp [h]
  · simp [h]

/-- One subtraction brings a sum of two digits and a carry below the base (43_base_q_adder.md R202, R209). -/
theorem carryDigit_fst_lt {q t : Nat} (h : t < 2 * q) : (carryDigit q t).1 < q := by
  rcases Nat.lt_or_ge t q with h' | h'
  · simp [h']
  · simp only [h', carryDigit_ge]
    omega

theorem ripple_fst_lt {q : Nat} {ts : List Nat} : ∀ {c : Bool}, (∀ d ∈ ts, d < q) → ∀ d ∈ (ripple q c ts).1, d < q := by
  induction ts with
  | nil => intro c _; cases c <;> simp [ripple]
  | cons t ts ih =>
    intro c h
    cases c with
    | false => exact h
    | true =>
      obtain ⟨ht, hts⟩ := List.forall_mem_cons.mp h
      exact List.forall_mem_cons.mpr ⟨carryDigit_fst_lt (by omega), ih hts⟩

/-- Every digit the adder leaves is below the base (43_base_q_adder.md R202). -/
theorem carryAdd_fst_lt {q : Nat} {ts : List Nat} : ∀ {c : Bool} {us : List Nat}, (∀ d ∈ ts, d < q) → (∀ d ∈ us, d < q) →
    ∀ d ∈ (carryAdd q c ts us).1, d < q := by
  induction ts with
  | nil =>
    intro c us hts _
    cases us with
    | nil => exact ripple_fst_lt hts
    | cons u us => simp [carryAdd]
  | cons t ts ih =>
    intro c us hts hus
    cases us with
    | nil =>
      rw [carryAdd_nil]
      exact ripple_fst_lt hts
    | cons u us =>
      obtain ⟨ht, hts⟩ := List.forall_mem_cons.mp hts
      obtain ⟨hu, hus⟩ := List.forall_mem_cons.mp hus
      have hc : c.toNat ≤ 1 := c.toNat_le
      exact List.forall_mem_cons.mpr ⟨carryDigit_fst_lt (by omega), ih hts hus⟩

/-- The digits left by a carry that ripples, with the carry out at its weight, make the sum up (43_base_q_adder.md R202). -/
theorem ripple_value (q : Nat) (ts : List Nat) : ∀ c : Bool,
    Nat.ofDigits q (ripple q c ts).1 + q ^ ts.length * (ripple q c ts).2.toNat = Nat.ofDigits q ts + c.toNat := by
  induction ts with
  | nil => intro c; cases c <;> simp [ripple]
  | cons t ts ih =>
    intro c
    cases c with
    | false => simp [ripple]
    | true =>
      have hdigit := carryDigit_value q (t + 1)
      have hrest := ih (carryDigit q (t + 1)).2
      rw [ripple_cons, List.length_cons, pow_succ, Nat.ofDigits_cons, Nat.ofDigits_cons, Bool.toNat_true]
      linear_combination hdigit + q * hrest

/-- The digits the adder leaves, with the carry out at its weight, make the sum up (43_base_q_adder.md R202). -/
theorem carryAdd_value (q : Nat) (ts : List Nat) : ∀ (c : Bool) {us : List Nat}, us.length ≤ ts.length →
    Nat.ofDigits q (carryAdd q c ts us).1 + q ^ ts.length * (carryAdd q c ts us).2.toNat =
      Nat.ofDigits q ts + Nat.ofDigits q us + c.toNat := by
  induction ts with
  | nil =>
    intro c us h
    obtain rfl := List.length_eq_zero_iff.mp (Nat.le_zero.mp h)
    simpa [carryAdd_nil] using ripple_value q [] c
  | cons t ts ih =>
    intro c us h
    cases us with
    | nil => simpa [carryAdd_nil] using ripple_value q (t :: ts) c
    | cons u us =>
      have hdigit := carryDigit_value q (t + u + c.toNat)
      have hrest := ih (carryDigit q (t + u + c.toNat)).2 (Nat.le_of_succ_le_succ h)
      rw [carryAdd_cons, List.length_cons, pow_succ, Nat.ofDigits_cons, Nat.ofDigits_cons, Nat.ofDigits_cons]
      linear_combination hdigit + q * hrest

/-- Where both vectors have one length, it does not matter which is added into which (43_base_q_adder.md R207). -/
theorem carryAdd_comm (q : Nat) (ts : List Nat) : ∀ (c : Bool) {us : List Nat}, us.length = ts.length →
    carryAdd q c ts us = carryAdd q c us ts := by
  induction ts with
  | nil =>
    intro c us h
    rw [List.length_eq_zero_iff.mp h]
  | cons t ts ih =>
    intro c us h
    cases us with
    | nil => cases h
    | cons u us => rw [carryAdd_cons, carryAdd_cons, Nat.add_comm u t, ih _ (Nat.succ.inj h)]

/-! ### The value of the digits left -/

/-- In a uniform base the value of a digit vector is Mathlib's (00_scope.md R11). -/
theorem digitValue_replicate (q : Nat) (ds : List Nat) : ∀ {n : Nat}, ds.length = n →
    digitValue ds (List.replicate n q) = Nat.ofDigits q ds := by
  simp only [← horner_eq_digitValue]
  induction ds with
  | nil => intro n _; simp [horner]
  | cons d ds ih =>
    rintro _ rfl
    rw [List.length_cons, List.replicate_succ, horner, ih rfl, Nat.ofDigits_cons]
    ring

/-- Unlike `Nat.ofDigits_lt_base_pow_length`, also for base 1, which `QBASE` may hold. -/
theorem ofDigits_lt_pow_length {q : Nat} {ds : List Nat} (h : ∀ d ∈ ds, d < q) : Nat.ofDigits q ds < q ^ ds.length := by
  induction ds with
  | nil => simp
  | cons d ds ih =>
    obtain ⟨hd, hds⟩ := List.forall_mem_cons.mp h
    calc Nat.ofDigits q (d :: ds) = d + q * Nat.ofDigits q ds := Nat.ofDigits_cons
      _ < q * (Nat.ofDigits q ds + 1) := by rw [Nat.mul_succ]; omega
      _ ≤ q * q ^ ds.length := Nat.mul_le_mul_left q (ih hds)
      _ = q ^ (d :: ds).length := by rw [List.length_cons, pow_succ']

section Sum

variable {q : Nat} {ts us : List Nat} (hts : ∀ d ∈ ts, d < q) (hus : ∀ d ∈ us, d < q) (hle : us.length ≤ ts.length)

include hts hus hle

/-- The adder's digits are the sum modulo the power of the base (43_base_q_adder.md R203). -/
theorem carryAdd_fst_value : Nat.ofDigits q (carryAdd q false ts us).1 =
    (Nat.ofDigits q ts + Nat.ofDigits q us) % q ^ ts.length := by
  have hvalue := carryAdd_value q ts false hle
  have hlt := ofDigits_lt_pow_length (carryAdd_fst_lt (c := false) hts hus)
  rw [carryAdd_length] at hlt
  rw [Bool.toNat_false, Nat.add_zero] at hvalue
  rw [← hvalue, Nat.add_mul_mod_self_left, Nat.mod_eq_of_lt hlt]

/-- The adder's carry out says whether the sum reaches the power of the base (43_base_q_adder.md R203). -/
theorem carryAdd_snd_iff : (carryAdd q false ts us).2 = true ↔
    q ^ ts.length ≤ Nat.ofDigits q ts + Nat.ofDigits q us := by
  have hvalue := carryAdd_value q ts false hle
  have hlt := ofDigits_lt_pow_length (carryAdd_fst_lt (c := false) hts hus)
  rw [carryAdd_length] at hlt
  rw [Bool.toNat_false, Nat.add_zero] at hvalue
  cases hc : (carryAdd q false ts us).2 with
  | false =>
    rw [hc, Bool.toNat_false, Nat.mul_zero] at hvalue
    simp only [Bool.false_eq_true, false_iff]
    omega
  | true =>
    rw [hc, Bool.toNat_true, Nat.mul_one] at hvalue
    simp only [true_iff]
    omega

end Sum

/-! ### The stored sum -/

/-- The two addends' value, `x + y` of 43_base_q_adder.md R204. -/
def addendSum (s : State) (nx ny : Nat) : Nat :=
  digitValue (digits s.x nx) (List.replicate nx s.qbase.toNat) +
    digitValue (digits s.y ny) (List.replicate ny s.qbase.toNat)

/-- `t` is the completion of `s` that leaves `sum` in `X[0..n-1]` modulo the `n`-th power of the base and reports a carry
exactly where the sum reaches that power (43_base_q_adder.md R203, R204). -/
def SumStored (s : State) (n sum : Nat) (t : State) : Prop :=
  ∃ x' : Buffer,
    t = { s with x := x', busy := false, done := true, errcode := if s.qbase.toNat ^ n ≤ sum then 7 else 0, erridx := 0,
                 erry := false, rlen := BitVec.ofNat 8 n } ∧
    digitValue (digits x' n) (List.replicate n s.qbase.toNat) = sum % s.qbase.toNat ^ n ∧
    DigitsBelow (digits x' n) (List.replicate n s.qbase.toNat) ∧ agreeFrom n x' s.x

/-- Storing what the adder leaves of two vectors below the base, the second no longer than the first (43_base_q_adder.md
R201, R203). -/
theorem storeSum_sumStored {s : State} {n : Nat} {ts us : List Nat} (hn : n ≤ 128) (hlen : ts.length = n)
    (hle : us.length ≤ n) (hts : ∀ d ∈ ts, d < s.qbase.toNat) (hus : ∀ d ∈ us, d < s.qbase.toNat) :
    SumStored s n (Nat.ofDigits s.qbase.toNat ts + Nat.ofDigits s.qbase.toNat us)
      (storeSum s n (carryAdd s.qbase.toNat false ts us)) := by
  subst hlen
  have hlength := carryAdd_length s.qbase.toNat false ts us
  have hbelow := carryAdd_fst_lt (c := false) hts hus
  have hread : digits (writeDigits s.x (carryAdd s.qbase.toNat false ts us).1) ts.length =
      (carryAdd s.qbase.toNat false ts us).1 := by
    have h := digits_writeDigits s.x _ (hlength.trans_le hn) fun d hd => (hbelow d hd).trans s.qbase.isLt
    rwa [hlength] at h
  refine ⟨writeDigits s.x (carryAdd s.qbase.toNat false ts us).1, ?report, ?value, ?below, ?frame⟩
  case report =>
    rw [storeSum_eq_complete]
    simp only [carryAdd_snd_iff hts hus hle]
    split <;> rfl
  case value => rw [hread, digitValue_replicate _ _ hlength, carryAdd_fst_value hts hus hle]
  case below =>
    rw [hread]
    exact (digitsBelow_replicate_iff _ hlength.le).mpr hbelow
  case frame => simpa only [hlength] using writeDigits_agreeFrom s.x _ (hlength.trans_le hn)

/-- The digits and the code of a stored sum (43_base_q_adder.md R204). -/
theorem SumStored.value_and_code {s t : State} {n sum : Nat} (h : SumStored s n sum t) :
    digitValue (digits t.x n) (List.replicate n s.qbase.toNat) = sum % s.qbase.toNat ^ n ∧
      (t.errcode = 7 ↔ s.qbase.toNat ^ n ≤ sum) := by
  obtain ⟨x', rfl, hvalue, -, -⟩ := h
  refine ⟨hvalue, ?_⟩
  by_cases hc : s.qbase.toNat ^ n ≤ sum <;> simp [hc]

/-- No failure of a body reports what only a stored sum does (60_exceptions.md R242). -/
theorem not_sumCode_of_raise {s t : State} {r : Raise} (hr : r.Legal)
    (h : (.next (s.raise r) : Host.Outcome State Fault Refusal) = .next t) : ¬ (t.errcode = 0 ∨ t.errcode = 7) := by
  cases h
  rcases hr with ⟨h, -⟩ | ⟨h, -⟩ | h | ⟨h, -⟩ | ⟨h, -⟩ <;> simp [h, ErrCode.code]

/-- The sum of the first digits of two buffers, the second vector no longer than the first, as the adder stores it. -/
theorem storeSum_digits {s : State} {b b' : Buffer} {n m : Nat} (hn : n ≤ 128) (hle : m ≤ n)
    (hb : DigitsBelow (digits b n) (List.replicate n s.qbase.toNat))
    (hb' : DigitsBelow (digits b' m) (List.replicate m s.qbase.toNat)) :
    SumStored s n (digitValue (digits b n) (List.replicate n s.qbase.toNat) +
        digitValue (digits b' m) (List.replicate m s.qbase.toNat))
      (storeSum s n (carryAdd s.qbase.toNat false (digits b n) (digits b' m))) := by
  have hlen : (digits b n).length = n := by rw [digits_length, min_eq_left hn]
  have hlen' : (digits b' m).length = m := by rw [digits_length, min_eq_left (hle.trans hn)]
  rw [digitValue_replicate _ _ hlen, digitValue_replicate _ _ hlen']
  exact storeSum_sumStored hn hlen (hlen'.trans_le hle) ((digitsBelow_replicate_iff _ hlen.le).mp hb)
    ((digitsBelow_replicate_iff _ hlen'.le).mp hb')

/-! ### `ADDQ` -/

/-- `ADDQ` with every check passed (43_base_q_adder.md R201, R204). -/
theorem exec_addq_sumStored {s : State} {nx ny : Nat} (hnx : nx ≤ 128) (hle : ny ≤ nx)
    (h : checkAddends s nx ny = .ok ()) :
    ∃ t, exec (.addq nx ny) s = .next t ∧ SumStored s nx (addendSum s nx ny) t := by
  obtain ⟨-, hx, hy⟩ := checkAddends_ok_iff.mp h
  exact ⟨_, exec_addq_ok hnx hle h, storeSum_digits hnx hle hx hy⟩

/-- Only an `ADDQ` with every check passed reports success or a carry (43_base_q_adder.md R200). -/
theorem exec_addq_checks {s t : State} {nx ny : Nat} (h : exec (.addq nx ny) s = .next t)
    (hcode : t.errcode = 0 ∨ t.errcode = 7) : nx ≤ 128 ∧ ny ≤ nx ∧ checkAddends s nx ny = .ok () := by
  rcases addqPlan_cases s nx ny with ⟨-, hle, hnx, hinOrder⟩ | ⟨r, hplan, hr, -⟩
  · exact ⟨hnx, hle, checkAddends_ok_iff.mpr hinOrder⟩
  · rw [exec, execAddq, hplan, State.conclude_error] at h
    exact absurd hcode (not_sumCode_of_raise hr h)

/-- Settles O47: the adder's digits and carry out make the sum up, so they are its remainder and its reaching the power. -/
theorem addqAddsModuloThePower : Obligations.AddqAddsModuloThePower := by
  refine ⟨fun s nx ny hle hnx hq hx hy => ?inOrder, fun s t nx ny hexec hcode => ?completed⟩
  case inOrder =>
    obtain ⟨t, hexec, x', rfl, hsum⟩ :=
      exec_addq_sumStored hnx hle (checkAddends_ok_iff.mpr ⟨digit_toNat_ne_zero hq, hx, hy⟩)
    exact ⟨x', hexec, hsum⟩
  case completed =>
    obtain ⟨hnx, hle, hchecks⟩ := exec_addq_checks hexec hcode
    obtain ⟨t', hexec', hsum⟩ := exec_addq_sumStored hnx hle hchecks
    obtain rfl := Host.Outcome.next.inj (hexec.symm.trans hexec')
    exact hsum.value_and_code

/-! ### `ADDQC` -/

/-- The digits and the carry `ADDQC` stores: the longer operand is the one added into (43_base_q_adder.md R206). -/
def addqcSum (s : State) (nx ny : Nat) : List Nat × Bool :=
  if nx < ny then carryAdd s.qbase.toNat false (digits s.y ny) (digits s.x nx)
  else carryAdd s.qbase.toNat false (digits s.x nx) (digits s.y ny)

/-- `ADDQC` with every check passed stores the sum (43_base_q_adder.md R206). -/
theorem exec_addqc_ok {s : State} {nx ny : Nat} (hnx : nx ≤ 128) (hny : ny ≤ 128) (h : checkAddends s nx ny = .ok ()) :
    exec (.addqc nx ny) s = .next (storeSum s (max nx ny) (addqcSum s nx ny)) := by
  refine congrArg _ ((conclude_bind_ok (checkLengths_both_ok hnx hny) s _ _).trans
    ((conclude_bind_ok h s _ _).trans ?_))
  rw [addqcSum]
  split <;> rfl

theorem addqcSum_length (s : State) {nx ny : Nat} (hnx : nx ≤ 128) (hny : ny ≤ 128) :
    (addqcSum s nx ny).1.length = max nx ny := by
  rw [addqcSum]
  split <;> rw [carryAdd_length, digits_length] <;> omega

/-- Exchanged operands are added into one another the same way (43_base_q_adder.md R207). -/
theorem addqcSum_swap {s s' : State} {nx ny : Nat} (hq : s'.qbase = s.qbase) (hx : digits s'.x ny = digits s.y ny)
    (hy : digits s'.y nx = digits s.x nx) :
    addqcSum s' ny nx = addqcSum s nx ny := by
  rw [addqcSum, addqcSum, hq, hx, hy]
  rcases Nat.lt_trichotomy nx ny with hlt | rfl | hlt
  · rw [if_neg (Nat.lt_asymm hlt), if_pos hlt]
  · rw [if_neg (Nat.lt_irrefl nx), if_neg (Nat.lt_irrefl nx)]
    exact carryAdd_comm _ _ _ (by simp)
  · rw [if_pos hlt, if_neg (Nat.lt_asymm hlt)]

/-- `ADDQC` with every check passed (43_base_q_adder.md R206, R207). -/
theorem exec_addqc_sumStored {s : State} {nx ny : Nat} (hnx : nx ≤ 128) (hny : ny ≤ 128)
    (h : checkAddends s nx ny = .ok ()) :
    ∃ t, exec (.addqc nx ny) s = .next t ∧ SumStored s (max nx ny) (addendSum s nx ny) t := by
  obtain ⟨-, hx, hy⟩ := checkAddends_ok_iff.mp h
  refine ⟨_, exec_addqc_ok hnx hny h, ?_⟩
  rw [addqcSum]
  split_ifs with hlt
  · rw [max_eq_right hlt.le, addendSum, Nat.add_comm]
    exact storeSum_digits hny hlt.le hy hx
  · rw [max_eq_left (Nat.le_of_not_lt hlt)]
    exact storeSum_digits hnx (Nat.le_of_not_lt hlt) hx hy

/-- Only an `ADDQC` with every check passed reports success or a carry (43_base_q_adder.md R205). -/
theorem exec_addqc_checks {s t : State} {nx ny : Nat} (h : exec (.addqc nx ny) s = .next t)
    (hcode : t.errcode = 0 ∨ t.errcode = 7) : nx ≤ 128 ∧ ny ≤ 128 ∧ checkAddends s nx ny = .ok () := by
  rcases addqcPlan_cases s nx ny with ⟨-, hnx, hny, hinOrder⟩ | ⟨r, hplan, hr, -⟩
  · exact ⟨hnx, hny, checkAddends_ok_iff.mpr hinOrder⟩
  · rw [exec, execAddqc, hplan, State.conclude_error] at h
    exact absurd hcode (not_sumCode_of_raise hr h)

/-- Settles O48: as for `ADDQ`, with the longer operand added into; exchanged operands leave the same digits and carry. -/
theorem addqcAddsModuloThePower : Obligations.AddqcAddsModuloThePower := by
  refine ⟨fun s nx ny hnx hny hq hx hy => ?inOrder, fun s t nx ny hexec hcode => ?completed,
    fun s s' t t' nx ny hq hx hy hexec hexec' hcode => ?exchanged⟩
  case inOrder =>
    obtain ⟨t, hexec, x', rfl, hsum⟩ :=
      exec_addqc_sumStored hnx hny (checkAddends_ok_iff.mpr ⟨digit_toNat_ne_zero hq, hx, hy⟩)
    exact ⟨x', hexec, hsum⟩
  case completed =>
    obtain ⟨hnx, hny, hchecks⟩ := exec_addqc_checks hexec hcode
    obtain ⟨t', hexec', hsum⟩ := exec_addqc_sumStored hnx hny hchecks
    obtain rfl := Host.Outcome.next.inj (hexec.symm.trans hexec')
    exact hsum.value_and_code
  case exchanged =>
    obtain ⟨hnx, hny, hchecks⟩ := exec_addqc_checks hexec hcode
    have hchecks' : checkAddends s' ny nx = .ok () := by
      obtain ⟨hbase, hbelow, hbelow'⟩ := checkAddends_ok_iff.mp hchecks
      rw [checkAddends_ok_iff, hq, hx, hy]
      exact ⟨hbase, hbelow', hbelow⟩
    rw [exec_addqc_ok hnx hny hchecks] at hexec
    rw [exec_addqc_ok hny hnx hchecks', addqcSum_swap hq hx hy, max_comm] at hexec'
    obtain rfl := Host.Outcome.next.inj hexec
    obtain rfl := Host.Outcome.next.inj hexec'
    have hlen := addqcSum_length s hnx hny
    obtain ⟨⟨-, -, hcodes, -, -, hrlen⟩, -, hdigits⟩ :=
      sameResult_storeSum (i := .addqc nx ny) s s' (n := max nx ny) rfl hlen.symm (hlen.trans_le (max_le hnx hny))
    exact ⟨(digits_congr (hdigits hcode)).symm, hcodes.symm, hrlen.symm⟩

end Sys2Proof.Machine

/-! ## The CRT codec

What `CRT.ENC` leaves in `X` (44_crt.md R221, R222). For `CRT.DEC`, when the inverses exist, that the sum then solves
the congruences, and that no other value below the product does (R223 to R228). The round trip puts the two together
(R229). -/

namespace Sys2Proof.Machine

theorem product_eq_prod (ms : List Nat) : product ms = ms.prod := by
  induction ms with
  | nil => rfl
  | cons m ms ih => rw [product, ih, List.prod_cons]

/-- Positions name the same modulus in the list and in the buffer. -/
theorem digits_getElem_of_lt {b : Buffer} {k i : Nat} (hk : k ≤ 128) (hi : i < k) :
    (digits b k)[i]'(by rw [digits_length]; omega) = b[i].toNat :=
  digits_getElem b k i _

theorem digits_length_of_le (b : Buffer) {k : Nat} (hk : k ≤ 128) : (digits b k).length = k := by
  rw [digits_length, min_eq_left hk]

/-- Digits in range, said of the entries. -/
theorem digitsBelow_digits_iff (b b' : Buffer) (k : Nat) :
    DigitsBelow (digits b k) (digits b' k) ↔ ∀ (i : Nat) (_ : i < 128), i < k → b[i].toNat < b'[i].toNat := by
  constructor
  · intro h i hi hik
    have hmem := List.getElem_mem (l := (digits b k).zip (digits b' k)) (n := i) (by simp; omega)
    simpa only [List.getElem_zip, digits_getElem] using h _ hmem
  · intro h p hp
    obtain ⟨i, hi, rfl⟩ := List.getElem_of_mem hp
    simp only [List.length_zip, digits_length, min_self, lt_min_iff] at hi
    simpa only [List.getElem_zip, digits_getElem] using h i hi.2 hi.1

/-! ### `CRT.ENC` -/

/-- The residues of `VAL` (44_crt.md R221). -/
def residues (s : State) (k : Nat) : List Nat := (digits s.mod k).map fun m => s.val.toNat % m

/-- What a completion of `CRT.ENC` without failure leaves (44_crt.md R221). -/
def crtEncoded (s : State) (k : Nat) : State := { s with x := writeDigits s.x (residues s k) }.succeed k

@[simp] theorem crtEncoded_x (s : State) (k : Nat) : (crtEncoded s k).x = writeDigits s.x (residues s k) := rfl

theorem exec_crtEnc_ok {s : State} {k : Nat} (hk : k ≤ 128) (hm : ∀ m ∈ digits s.mod k, m ≠ 0) :
    exec (.crtEnc k) s = .next (crtEncoded s k) :=
  congrArg _ ((conclude_bind_ok (checkLengths_ok hk) s _ _).trans (conclude_bind_ok (checkModuli_ok hm) s _ _))

/-- All that `CRT.ENC` can do: its two checks are all that can fail (44_crt.md R222). -/
theorem exec_crtEnc_cases (s : State) (k : Nat) :
    (k ≤ 128 ∧ (∀ m ∈ digits s.mod k, m ≠ 0) ∧ exec (.crtEnc k) s = .next (crtEncoded s k)) ∨
    ∃ r : Raise, (r.code = .length ∨ r.code = .modulus) ∧ exec (.crtEnc k) s = .next (s.raise r) := by
  by_cases hk : k ≤ 128
  · rcases checkModuli_cases (digits s.mod k) with ⟨-, hm⟩ | ⟨i, -, hcheck, -⟩
    · exact .inl ⟨hk, hm, exec_crtEnc_ok hk hm⟩
    · exact .inr ⟨⟨.modulus, i, false⟩, .inr rfl, congrArg _
        ((conclude_bind_ok (checkLengths_ok hk) s _ _).trans (conclude_bind_error hcheck s _ _))⟩
  · exact .inr ⟨⟨.length, 0, false⟩, .inl rfl,
      congrArg _ (conclude_long_length (ny := 0) (.inl (Nat.lt_of_not_le hk)) s _ _)⟩

theorem residues_length (s : State) {k : Nat} (hk : k ≤ 128) : (residues s k).length = k := by
  rw [residues, List.length_map, digits_length_of_le _ hk]

/-- The residues fit the entries of `X` and read back as they were written. -/
theorem digits_crtEncoded {s : State} {k : Nat} (hk : k ≤ 128) (hm : ∀ m ∈ digits s.mod k, m ≠ 0) :
    digits (crtEncoded s k).x k = residues s k := by
  have hlen := residues_length s hk
  have hfit : ∀ r ∈ residues s k, r < 2 ^ 16 := by
    intro r hr
    obtain ⟨m, hmem, rfl⟩ := List.mem_map.mp hr
    exact (Nat.mod_lt _ (Nat.pos_of_ne_zero (hm m hmem))).trans (digits_lt _ _ m hmem)
  simpa only [hlen, crtEncoded_x] using digits_writeDigits s.x (residues s k) (hlen.le.trans hk) hfit

/-- Entry `i < k` of `X` holds the residue of its modulus (44_crt.md R221). -/
theorem crtEncoded_x_toNat {s : State} {k i : Nat} (hk : k ≤ 128) (hm : ∀ m ∈ digits s.mod k, m ≠ 0)
    (hi : i < k) : (crtEncoded s k).x[i].toNat = s.val.toNat % s.mod[i].toNat := by
  simp only [← digits_getElem_of_lt hk hi, digits_crtEncoded hk hm, residues, List.getElem_map]

/-- Every residue is below its modulus (44_crt.md R222). -/
theorem crtEncoded_x_lt {s : State} {k i : Nat} (hk : k ≤ 128) (hm : ∀ m ∈ digits s.mod k, m ≠ 0) (hi : i < k) :
    (crtEncoded s k).x[i].toNat < s.mod[i].toNat := by
  rw [crtEncoded_x_toNat hk hm hi]
  exact Nat.mod_lt _ (Nat.pos_of_ne_zero ((forall_mem_digits s.mod k (· ≠ 0)).mp hm i (hi.trans_le hk) hi))

/-- Settles O35: the residues are written as the checks let them pass, and only those two checks raise a code. -/
theorem crtEncWritesResidues : Obligations.CrtEncWritesResidues := by
  refine ⟨fun s k hk hm => ⟨(crtEncoded s k).x, exec_crtEnc_ok hk hm, fun i _ hi => ?residue, ?frame⟩,
    fun s t k hexec => ?completed⟩
  case residue => exact ⟨crtEncoded_x_toNat hk hm hi, crtEncoded_x_lt hk hm hi⟩
  case frame =>
    have hlen := residues_length s hk
    simpa only [hlen, crtEncoded_x] using writeDigits_agreeFrom s.x (residues s k) (hlen.le.trans hk)
  case completed =>
    rcases exec_crtEnc_cases s k with ⟨hk, hm, hok⟩ | ⟨r, hcode, hfail⟩
    · obtain rfl := Host.Outcome.next.inj (hexec.symm.trans hok)
      exact ⟨fun _ i _ hi => crtEncoded_x_lt hk hm hi, fun h => absurd rfl h⟩
    · obtain rfl := Host.Outcome.next.inj (hexec.symm.trans hfail)
      have hraised : (s.raise r).errcode = 2 ∨ (s.raise r).errcode = 3 :=
        hcode.imp (congrArg ErrCode.code) (congrArg ErrCode.code)
      refine ⟨fun h0 => ?_, fun _ => hraised⟩
      rw [h0] at hraised
      exact absurd hraised (by decide)

/-! ### Coprime moduli -/

/-- The modulus of position `i` shares no factor with another one (44_crt.md R228). -/
def CoprimeToOthers (ms : List Nat) (i : Nat) : Prop :=
  ∀ (hi : i < ms.length) (j : Nat) (hj : j < ms.length), j ≠ i → Nat.Coprime ms[i] ms[j]

theorem pairwise_coprime_iff (ms : List Nat) : ms.Pairwise Nat.Coprime ↔ ∀ i, CoprimeToOthers ms i := by
  rw [List.pairwise_iff_getElem]
  refine ⟨fun h i hi j hj hne => ?_, fun h i j hi hj hlt => h i hi j hj hlt.ne'⟩
  rcases Nat.lt_or_gt_of_ne hne with hlt | hlt
  · exact (h j i hj hi hlt).symm
  · exact h i j hi hj hlt

theorem coprimeToOthers_digits_iff {b : Buffer} {k i : Nat} (hk : k ≤ 128) (hi : i < k) :
    CoprimeToOthers (digits b k) i ↔
      ∀ (j : Nat) (_ : j < 128), j < k → j ≠ i → Nat.Coprime b[i].toNat b[j].toNat := by
  have hlen := digits_length_of_le b hk
  constructor
  · intro h j _ hj hne
    rw [← digits_getElem_of_lt hk hi, ← digits_getElem_of_lt hk hj]
    exact h (hi.trans_eq hlen.symm) j (hj.trans_eq hlen.symm) hne
  · intro h _ j hj hne
    have hjk := hj.trans_eq hlen
    rw [digits_getElem_of_lt hk hi, digits_getElem_of_lt hk hjk]
    exact h j (hjk.trans_le hk) hjk hne

/-- `M div m_i` is the product of the other moduli (44_crt.md R224). -/
theorem prod_div_getElem {ms : List Nat} (hms : ∀ m ∈ ms, m ≠ 0) {i : Nat} (hi : i < ms.length) :
    ms.prod / ms[i] = (ms.eraseIdx i).prod := by
  have hpos := Nat.pos_of_ne_zero (hms _ (List.getElem_mem hi))
  rw [← List.CommMonoid.mul_prod_eraseIdx hi, Nat.mul_div_cancel_left _ hpos]

theorem getElem_dvd_prod_div {ms : List Nat} (hms : ∀ m ∈ ms, m ≠ 0) {i j : Nat} (hi : i < ms.length)
    (hj : j < ms.length) (hne : j ≠ i) : ms[j] ∣ ms.prod / ms[i] := by
  rw [prod_div_getElem hms hi]
  exact List.dvd_prod (List.mem_eraseIdx_iff_getElem.mpr ⟨j, hj, hne, rfl⟩)

theorem coprime_prod_div_iff {ms : List Nat} (hms : ∀ m ∈ ms, m ≠ 0) {i : Nat} (hi : i < ms.length) :
    Nat.Coprime (ms.prod / ms[i]) ms[i] ↔ CoprimeToOthers ms i := by
  rw [prod_div_getElem hms hi, Nat.coprime_list_prod_left_iff]
  constructor
  · exact fun h _ j hj hne => (h _ (List.mem_eraseIdx_iff_getElem.mpr ⟨j, hj, hne, rfl⟩)).symm
  · intro h m hmem
    obtain ⟨j, hj, hne, rfl⟩ := List.mem_eraseIdx_iff_getElem.mp hmem
    exact (h hi j hj hne).symm

/-! ### The inverses -/

/-- `INV` answers an inverse for coprime operands, the modulus 1 included (41_modular_inverse.md R151, R152). -/
theorem inv_ok_of_coprime {a m : Nat} (hm : m ≠ 0) (hco : Nat.Coprime a m) :
    ∃ w, inv a m = .ok w ∧ a * w ≡ 1 [MOD m] := by
  by_cases h1 : m = 1
  · exact ⟨0, by rw [inv, if_neg hm, if_pos h1], by rw [h1]; exact Nat.modEq_one⟩
  · have hm2 : 2 ≤ m := by omega
    obtain ⟨w, hok, -, hinv⟩ := inv_of_coprime hm2 hco
    exact ⟨w, hok, by rw [Nat.ModEq, hinv, Nat.mod_eq_of_lt hm2]⟩

/-- What `INV` answers is an inverse (41_modular_inverse.md R152, R153). -/
theorem inv_ok_spec {a m w : Nat} (hm : m ≠ 0) (h : inv a m = .ok w) : Nat.Coprime a m ∧ a * w ≡ 1 [MOD m] := by
  have hco : Nat.Coprime a m := by
    by_contra hco
    have hm1 : m ≠ 1 := fun h1 => hco (h1 ▸ Nat.coprime_one_right a)
    rw [inv_of_not_coprime (by omega) hco] at h
    cases h
  obtain ⟨w', hok, hinv⟩ := inv_ok_of_coprime hm hco
  obtain rfl : w = w' := Except.ok.inj (h.symm.trans hok)
  exact ⟨hco, hinv⟩

/-- All that the search for the inverses can answer: one for each modulus, or the lowest position without one
(44_crt.md R224). -/
theorem crtInverses_ok_or_lowest_error (M : Nat) (ps : List Nat) : ∀ n : Nat,
    (∃ ws, crtInverses M n ps = .ok ws ∧ List.Forall₂ (fun p w => inv (M / p) p = .ok w) ps ws) ∨
    (∃ (i : Nat) (hi : i < ps.length), crtInverses M n ps = .error ⟨.noInv, n + i, false⟩ ∧
      (∃ e, inv (M / ps[i]) ps[i] = .error e) ∧ ∀ j (_ : j < i), ∃ w, inv (M / ps[j]) ps[j] = .ok w) := by
  induction ps with
  | nil => exact fun n => .inl ⟨[], rfl, .nil⟩
  | cons p ps ih =>
    intro n
    rw [crtInverses]
    cases hinv : inv (M / p) p with
    | error e =>
      exact .inr ⟨0, Nat.succ_pos _, rfl, ⟨e, hinv⟩, fun j hj => absurd hj (Nat.not_lt_zero j)⟩
    | ok w =>
      rcases ih (n + 1) with ⟨ws, hok, hws⟩ | ⟨i, hi, hfail, he, hlow⟩
      · exact .inl ⟨w :: ws, by simp only [hok]; rfl, .cons hinv hws⟩
      · refine .inr ⟨i + 1, Nat.succ_lt_succ hi, ?_, he, fun j hj => ?_⟩
        · simp only [hfail, Nat.add_assoc, Nat.add_comm 1]
          rfl
        · cases j with
          | zero => exact ⟨w, hinv⟩
          | succ j => exact hlow j (Nat.lt_of_succ_lt_succ hj)

/-- The inverses exist for pairwise-coprime moduli; otherwise the lowest position whose modulus shares a factor with
another is reported (44_crt.md R228). -/
theorem crtInverses_prod_cases {ms : List Nat} (hms : ∀ m ∈ ms, m ≠ 0) :
    (∃ ws, crtInverses ms.prod 0 ms = .ok ws ∧ ms.Pairwise Nat.Coprime ∧
      List.Forall₂ (fun m w => ms.prod / m * w ≡ 1 [MOD m]) ms ws) ∨
    (∃ i < ms.length, crtInverses ms.prod 0 ms = .error ⟨.noInv, i, false⟩ ∧ ¬ CoprimeToOthers ms i ∧
      ∀ j < i, CoprimeToOthers ms j) := by
  rcases crtInverses_ok_or_lowest_error ms.prod ms 0 with ⟨ws, hok, hws⟩ | ⟨i, hi, hfail, ⟨e, he⟩, hlow⟩
  · refine .inl ⟨ws, hok, (pairwise_coprime_iff ms).mpr fun i hi => ?_, ?_⟩
    · have hinv := hws.get hi (hi.trans_eq hws.length_eq)
      exact (coprime_prod_div_iff hms hi).mp (inv_ok_spec (hms _ (List.getElem_mem hi)) hinv).1 hi
    · rw [List.forall₂_iff_zip] at hws ⊢
      exact ⟨hws.1, fun h => (inv_ok_spec (hms _ (List.of_mem_zip h).1) (hws.2 h)).2⟩
  · refine .inr ⟨i, hi, by rw [hfail, Nat.zero_add], fun hco => ?_, fun j hj => ?_⟩
    · obtain ⟨w, hok, -⟩ := inv_ok_of_coprime (hms _ (List.getElem_mem hi)) ((coprime_prod_div_iff hms hi).mpr hco)
      rw [he] at hok
      cases hok
    · obtain ⟨w, hok⟩ := hlow j hj
      exact (coprime_prod_div_iff hms (hj.trans hi)).mp (inv_ok_spec (hms _ (List.getElem_mem _)) hok).1

/-! ### The sum -/

theorem crtSum_lt {M : Nat} (hM : 0 < M) (ps : List Nat) : ∀ (acc : Nat) (rs ws : List Nat), acc < M →
    crtSum M acc rs ws ps < M := by
  induction ps with
  | nil => intro acc rs ws h; cases rs <;> cases ws <;> exact h
  | cons p ps ih =>
    intro acc rs ws h
    match rs, ws with
    | [], _ | _ :: _, [] => exact h
    | _ :: _, _ :: _ => exact ih _ _ _ (Nat.mod_lt _ hM)

/-- Terms that `n` divides do not change the sum modulo `n` (44_crt.md R225). -/
theorem crtSum_modEq_acc {M n : Nat} (hn : n ∣ M) {ps : List Nat} : ∀ (acc : Nat) (rs ws : List Nat),
    (∀ p ∈ ps, n ∣ M / p) → crtSum M acc rs ws ps ≡ acc [MOD n] := by
  induction ps with
  | nil => intro acc rs ws _; cases rs <;> cases ws <;> rfl
  | cons p ps ih =>
    intro acc rs ws h
    match rs, ws with
    | [], _ | _ :: _, [] => rfl
    | r :: rs, w :: ws =>
      obtain ⟨hp, hps⟩ := List.forall_mem_cons.mp h
      have hterm : r * w * (M / p) ≡ 0 [MOD n] := Nat.modEq_zero_iff_dvd.mpr (hp.mul_left _)
      calc crtSum M ((acc + r * w * (M / p)) % M) rs ws ps
        _ ≡ (acc + r * w * (M / p)) % M [MOD n] := ih _ _ _ hps
        _ ≡ acc + r * w * (M / p) [MOD n] := (Nat.mod_modEq _ _).of_dvd hn
        _ ≡ acc [MOD n] := hterm.add_left acc

/-- Each modulus divides `M` over each other one, and the weights are inverses: then each term decides the sum modulo its
own modulus (44_crt.md R225, R227). -/
theorem crtSum_modEq {M : Nat} {ps ws : List Nat} (hinv : List.Forall₂ (fun p w => M / p * w ≡ 1 [MOD p]) ps ws) :
    (∀ p ∈ ps, p ∣ M) → ps.Pairwise (fun p q => p ∣ M / q ∧ q ∣ M / p) →
    ∀ (acc : Nat) (rs : List Nat), rs.length = ps.length → (∀ p ∈ ps, p ∣ acc) →
      List.Forall₂ (fun p r => crtSum M acc rs ws ps ≡ r [MOD p]) ps rs := by
  induction hinv with
  | nil =>
    intro _ _ acc rs hlen _
    obtain rfl := List.length_eq_zero_iff.mp hlen
    exact .nil
  | @cons p w ps ws hw _ ih =>
    intro hdvd hpair acc rs hlen hacc
    obtain ⟨r, rs, rfl⟩ := List.exists_cons_of_length_eq_add_one hlen
    obtain ⟨hp, hps⟩ := List.forall_mem_cons.mp hdvd
    obtain ⟨hothers, hpair⟩ := List.pairwise_cons.mp hpair
    obtain ⟨hpacc, hacc⟩ := List.forall_mem_cons.mp hacc
    refine .cons ?head (ih hps hpair _ rs (Nat.succ.inj hlen) fun q hq => ?tail)
    case head =>
      have hterm : r * w * (M / p) ≡ r [MOD p] := by
        simpa only [mul_one, mul_comm, mul_left_comm, mul_assoc] using hw.mul_left r
      calc crtSum M ((acc + r * w * (M / p)) % M) rs ws ps
        _ ≡ (acc + r * w * (M / p)) % M [MOD p] := crtSum_modEq_acc hp _ _ _ fun q hq => (hothers q hq).1
        _ ≡ acc + r * w * (M / p) [MOD p] := (Nat.mod_modEq _ _).of_dvd hp
        _ ≡ 0 + r [MOD p] := (Nat.modEq_zero_iff_dvd.mpr hpacc).add hterm
        _ = r := Nat.zero_add r
    case tail =>
      exact (Nat.dvd_mod_iff (hps q hq)).mpr ((hacc q hq).add ((hothers q hq).2.mul_left _))

/-- With the inverses at hand the sum solves the congruences (44_crt.md R227). -/
theorem crtSum_prod_modEq {ms rs ws : List Nat} (hms : ∀ m ∈ ms, m ≠ 0) (hlen : rs.length = ms.length)
    (hinv : List.Forall₂ (fun m w => ms.prod / m * w ≡ 1 [MOD m]) ms ws) :
    List.Forall₂ (fun m r => crtSum ms.prod 0 rs ws ms ≡ r [MOD m]) ms rs := by
  refine crtSum_modEq hinv (fun m hm => List.dvd_prod hm) ?_ 0 rs hlen fun m _ => dvd_zero m
  rw [List.pairwise_iff_getElem]
  exact fun i j hi hj hlt => ⟨getElem_dvd_prod_div hms hj hi hlt.ne, getElem_dvd_prod_div hms hi hj hlt.ne'⟩

/-! ### `CRT.DEC` -/

/-- `v` is the value below `M` with the residues of `X` (44_crt.md R227). -/
def SolvesCongruences (s : State) (k v : Nat) : Prop :=
  v < (digits s.mod k).prod ∧ ∀ (i : Nat) (_ : i < 128), i < k → v % s.mod[i].toNat = s.x[i].toNat

theorem solvesCongruences_unique {s : State} {k v v' : Nat} (hco : (digits s.mod k).Pairwise Nat.Coprime)
    (h : SolvesCongruences s k v) (h' : SolvesCongruences s k v') : v' = v := by
  obtain ⟨hlt, hres⟩ := h
  obtain ⟨hlt', hres'⟩ := h'
  refine Nat.ModEq.eq_of_lt_of_lt ((Nat.modEq_list_prod_iff hco).mpr fun i => ?_) hlt' hlt
  obtain ⟨hik, hi⟩ := lt_min_iff.mp (i.isLt.trans_eq (digits_length _ _))
  rw [List.get_eq_getElem, digits_getElem]
  exact (hres' i hi hik).trans (hres i hi hik).symm

/-- A value below `M` congruent to digits in range has them as its residues. -/
theorem solvesCongruences_of_modEq {s : State} {k v : Nat} (hd : DigitsBelow (digits s.x k) (digits s.mod k))
    (hlt : v < (digits s.mod k).prod)
    (h : List.Forall₂ (fun m r => v ≡ r [MOD m]) (digits s.mod k) (digits s.x k)) : SolvesCongruences s k v := by
  refine ⟨hlt, fun i hi hik => ?_⟩
  have hlen : ∀ b : Buffer, i < (digits b k).length := fun b => by rw [digits_length]; exact lt_min hik hi
  have hmod := h.get (hlen _) (hlen _)
  simp only [List.get_eq_getElem, digits_getElem] at hmod
  rwa [Nat.ModEq, Nat.mod_eq_of_lt ((digitsBelow_digits_iff _ _ _).mp hd i hi hik)] at hmod

section Checked

variable {s : State} {k : Nat} (hk : k ≤ 128) (hm : ∀ m ∈ digits s.mod k, m ≠ 0)
  (hd : DigitsBelow (digits s.x k) (digits s.mod k))

include hk hm hd

/-- With length, moduli and residues in order, a product that does not fit `VAL` is reported (44_crt.md R223). -/
theorem exec_crtDec_overflow (hM : 2 ^ 128 ≤ (digits s.mod k).prod) :
    exec (.crtDec k) s = .next (s.raise ⟨.overflow, 0, false⟩) :=
  have hcheck : checkProduct (product (digits s.mod k)) = .error ⟨.overflow, 0, false⟩ := by
    rw [product_eq_prod, checkProduct, if_pos hM]
  congrArg _ ((conclude_bind_ok (checkLengths_ok hk) s _ _).trans ((conclude_bind_ok (checkModuli_ok hm) s _ _).trans
    ((conclude_bind_ok (checkDigits_ok false hd) s _ _).trans (conclude_bind_error hcheck s _ _))))

/-- With these checks and that of the product passed, what is left is the search for the inverses and the sum
(44_crt.md R226). -/
theorem exec_crtDec_checked (hM : (digits s.mod k).prod < 2 ^ 128) :
    exec (.crtDec k) s = .next (s.conclude
      (crtInverses (digits s.mod k).prod 0 (digits s.mod k) >>= fun ws =>
        .ok (crtSum (digits s.mod k).prod 0 (digits s.x k) ws (digits s.mod k)))
      fun s v => { s with val := BitVec.ofNat 128 v }.succeed 0) := by
  have hcheck : checkProduct (product (digits s.mod k)) = .ok () := by
    rw [product_eq_prod, checkProduct, if_neg (Nat.not_le.mpr hM)]
  rw [← product_eq_prod]
  exact congrArg _ ((conclude_bind_ok (checkLengths_ok hk) s _ _).trans
    ((conclude_bind_ok (checkModuli_ok hm) s _ _).trans
      ((conclude_bind_ok (checkDigits_ok false hd) s _ _).trans (conclude_bind_ok hcheck s _ _))))

/-- All that `CRT.DEC` can do once its checks have passed: solve the congruences, or report the lowest position whose
modulus shares a factor with another (44_crt.md R226 to R228). -/
theorem exec_crtDec_cases (hM : (digits s.mod k).prod < 2 ^ 128) :
    ((digits s.mod k).Pairwise Nat.Coprime ∧ ∃ v, SolvesCongruences s k v ∧
      exec (.crtDec k) s = .next ({ s with val := BitVec.ofNat 128 v }.succeed 0)) ∨
    (∃ i < k, ¬ CoprimeToOthers (digits s.mod k) i ∧ (∀ j < i, CoprimeToOthers (digits s.mod k) j) ∧
      exec (.crtDec k) s = .next (s.raise ⟨.noInv, i, false⟩)) := by
  rw [exec_crtDec_checked hk hm hd hM]
  have hpos : 0 < (digits s.mod k).prod := List.prod_pos fun m hmem => Nat.pos_of_ne_zero (hm m hmem)
  rcases crtInverses_prod_cases hm with ⟨ws, hok, hco, hinv⟩ | ⟨i, hi, hfail, hshares, hlow⟩
  · have hsum := crtSum_prod_modEq (rs := digits s.x k) hm (by rw [digits_length, digits_length]) hinv
    exact .inl ⟨hco, _, solvesCongruences_of_modEq hd (crtSum_lt hpos _ _ _ _ hpos) hsum,
      congrArg _ (conclude_bind_ok hok s _ _)⟩
  · exact .inr ⟨i, hi.trans_eq (digits_length_of_le _ hk), hshares, hlow,
      congrArg _ (conclude_bind_error hfail s _ _)⟩

/-- Pairwise-coprime moduli leave only the solution (44_crt.md R227, R228). -/
theorem exec_crtDec_of_coprime (hM : (digits s.mod k).prod < 2 ^ 128) (hco : (digits s.mod k).Pairwise Nat.Coprime) :
    ∃ v, SolvesCongruences s k v ∧ exec (.crtDec k) s = .next ({ s with val := BitVec.ofNat 128 v }.succeed 0) := by
  rcases exec_crtDec_cases hk hm hd hM with ⟨-, h⟩ | ⟨i, -, hshares, -⟩
  · exact h
  · exact absurd ((pairwise_coprime_iff _).mp hco i) hshares

/-- Any solution that is known is the one stored (44_crt.md R227). -/
theorem exec_crtDec_of_solution {v : Nat} (hM : (digits s.mod k).prod < 2 ^ 128)
    (hco : (digits s.mod k).Pairwise Nat.Coprime) (hv : SolvesCongruences s k v) :
    exec (.crtDec k) s = .next ({ s with val := BitVec.ofNat 128 v }.succeed 0) := by
  obtain ⟨v', hv', hexec⟩ := exec_crtDec_of_coprime hk hm hd hM hco
  rwa [solvesCongruences_unique hco hv hv'] at hexec

end Checked

/-- Only a `CRT.DEC` with every check passed reports success (44_crt.md R226). -/
theorem exec_crtDec_checks {s t : State} {k : Nat} (h : exec (.crtDec k) s = .next t) (h0 : t.errcode = 0) :
    k ≤ 128 ∧ (∀ m ∈ digits s.mod k, m ≠ 0) ∧ DigitsBelow (digits s.x k) (digits s.mod k) ∧
      (digits s.mod k).prod < 2 ^ 128 := by
  rcases crtDecPlan_cases s k with ⟨w, -, -, hk, hm, hd, hM⟩ | ⟨r, hplan, hr, -⟩
  · exact ⟨hk, hm, hd, product_eq_prod _ ▸ hM⟩
  · rw [exec, execCrtDec, hplan, State.conclude_error] at h
    obtain rfl := Host.Outcome.next.inj h
    exact absurd h0 (Raise.code_ne_zero_of_legal hr)

/-- Settles O38: the product is checked once length, moduli and residues are in order. -/
theorem crtDecOverflows : Obligations.CrtDecOverflows := fun _ _ hk hm hd hM => exec_crtDec_overflow hk hm hd hM

/-- Settles O36: the sum solves the congruences, and pairwise-coprime moduli leave one solution below their product. -/
theorem crtDecSolvesTheCongruences : Obligations.CrtDecSolvesTheCongruences := by
  refine ⟨fun s k hk hm hd hM hco => ?coprime, fun s t k hexec h0 => ?completed⟩
  case coprime =>
    obtain ⟨v, ⟨hlt, hres⟩, hexec⟩ := exec_crtDec_of_coprime hk hm hd hM hco
    exact ⟨v, hlt, hres, hexec⟩
  case completed =>
    obtain ⟨hk, hm, hd, hM⟩ := exec_crtDec_checks hexec h0
    rcases exec_crtDec_cases hk hm hd hM with ⟨hco, v, hv, hok⟩ | ⟨i, -, -, -, hfail⟩
    · obtain rfl := Host.Outcome.next.inj (hexec.symm.trans hok)
      have hval : (BitVec.ofNat 128 v).toNat = v := by
        rw [BitVec.toNat_ofNat, Nat.mod_eq_of_lt (hv.1.trans hM)]
      simp only [State.succeed_eq_complete, State.complete_val, hval]
      exact ⟨hv.1, hv.2, fun v' hlt hres => solvesCongruences_unique hco hv ⟨hlt, hres⟩⟩
    · obtain rfl := Host.Outcome.next.inj (hexec.symm.trans hfail)
      cases h0

/-- Settles O37: a position has an inverse exactly if its modulus is coprime to the product of the others. -/
theorem crtDecFailsExactlyWithoutCoprimality : Obligations.CrtDecFailsExactlyWithoutCoprimality := by
  refine fun s k hk hm hd hM => ⟨fun hnco => ?shares, fun t hexec h5 hco => ?coprime⟩
  case shares =>
    rcases exec_crtDec_cases hk hm hd hM with ⟨hco, -⟩ | ⟨i, hi, hshares, hlow, hexec⟩
    · exact absurd hco hnco
    · rw [coprimeToOthers_digits_iff hk hi] at hshares
      push Not at hshares
      exact ⟨i, hi.trans_le hk, hi, hshares,
        fun i' hi' => (coprimeToOthers_digits_iff hk (hi'.trans hi)).mp (hlow i' hi'), hexec⟩
  case coprime =>
    obtain ⟨v, -, hok⟩ := exec_crtDec_of_coprime hk hm hd hM hco
    obtain rfl := Host.Outcome.next.inj (hexec.symm.trans hok)
    cases h5

/-! ### The round trip -/

/-- Settles O39: `VAL` itself solves the congruences to its residues, and no other value below the product does. -/
theorem crtRoundTripRestoresValue : Obligations.CrtRoundTripRestoresValue := by
  intro s k v hk hm hco hM hlt
  refine ⟨crtEncoded s k, exec_crtEnc_ok hk hm, rfl, ?_⟩
  have hd : DigitsBelow (digits (crtEncoded s k).x k) (digits s.mod k) :=
    (digitsBelow_digits_iff _ _ _).mpr fun i _ hi => crtEncoded_x_lt hk hm hi
  have hval : SolvesCongruences { crtEncoded s k with val := v } k s.val.toNat :=
    ⟨hlt, fun i _ hi => (crtEncoded_x_toNat hk hm hi).symm⟩
  have h := exec_crtDec_of_solution (s := { crtEncoded s k with val := v }) hk hm hd hM hco hval
  rwa [BitVec.ofNat_toNat, BitVec.setWidth_eq] at h

end Sys2Proof.Machine

/-! ## Error codes and the interrupt

Which codes a step can raise, what a failed command leaves, and what moves `IRQ` (60_exceptions.md R241, R245, R250,
R251). -/

namespace Sys2Proof.Machine

/-! ### Failed commands -/

/-- Every command leaves a legal report, from any state. -/
theorem exec_reportLegal {i : Instr} {s t : State} (h : exec i s = .next t) : t.ReportLegal := by
  obtain ⟨v, x, r, hexec, hr, -⟩ := exec_cases i s
  rw [hexec] at h
  cases h
  exact (inv_complete _ hr).1

/-- Only the adder reports a carry (60_exceptions.md R240). -/
theorem exec_carry_adder {i : Instr} {s t : State} (h : exec i s = .next t) (h7 : t.errcode = 7) :
    ∃ nx ny, i = .addq nx ny ∨ i = .addqc nx ny := by
  obtain ⟨v, x, r, hexec, hr, -⟩ := exec_cases i s
  rw [hexec] at h
  cases h
  exact hr.carry (code_eq_seven h7)

/-- Beside `VAL` and `X` no command writes a data register, and a failed one keeps these too (60_exceptions.md R245). -/
theorem exec_failed_sameData {i : Instr} {s t : State} (h : exec i s = .next t) (h0 : t.errcode ≠ 0)
    (h7 : t.errcode ≠ 7) : sameData t s := by
  obtain ⟨hval, hx⟩ := exec_failed_frame h h0 h7
  obtain ⟨ht, -⟩ := commandsWriteOnlyTheirRegisters i s t h
  rw [ht]
  exact ⟨rfl, rfl, hval, rfl, rfl, rfl, hx, rfl⟩

/-- Settles O51: a legal report has a length only with success or a carry. -/
theorem failedCommandsWriteNoData : Obligations.FailedCommandsWriteNoData := by
  refine fun i s t h => ⟨fun h0 h7 => ⟨exec_failed_sameData h h0 h7, ?_⟩, exec_carry_adder h⟩
  obtain ⟨-, -, -, -, -, hrlen⟩ := exec_reportLegal h
  exact by_contra fun hne => (hrlen hne).elim h0 h7

/-! ### Reserved codes -/

/-- A write reports no error: it keeps the code, or a reset or an issue clears it. -/
theorem writeReg_errcode (s : State) (r : Reg) (v : Word) :
    (s.writeReg r v).errcode = s.errcode ∨ (s.writeReg r v).errcode = 0 := by
  cases r with
  | ctrl =>
    cases hv : v.getLsbD 1 with
    | true => exact .inr (by rw [State.writeReg, State.writeCtrl_reset s hv]; rfl)
    | false => exact .inl (by rw [State.writeReg, State.writeCtrl_enable s hv])
  | cmd => exact .inr rfl
  | id | param | status | qbase | val | opa | opm | mod | x | y | reserved => exact .inl rfl

/-- A host access reports no error in `STATUS`, also where it is refused (60_exceptions.md R249). -/
theorem hostAccess_errcode (s : State) (a : Access) :
    (s.hostAccess a).errcode = s.errcode ∨ (s.hostAccess a).errcode = 0 := by
  cases a with
  | read size off =>
    simp only [State.hostAccess]
    split
    · obtain ⟨w, hr, -⟩ := s.busRead_cases off
      exact .inl (by rw [hr])
    · exact .inl rfl
  | write size off v =>
    simp only [State.hostAccess]
    split
    · rcases s.busWrite_cases off v with ⟨-, hw⟩ | ⟨-, hw⟩ <;> simp only [hw]
      · exact .inl rfl
      · exact writeReg_errcode s _ v
    · exact .inl rfl

/-- The engine reports a raised code only, and nothing where no command is in flight (60_exceptions.md R241). -/
theorem engineTurn_errcode_lt {s t : State} (hs : s.errcode.toNat < 8) (h : s.engineTurn = .next t) :
    t.errcode.toNat < 8 := by
  cases hb : s.busy with
  | true =>
    obtain ⟨⟨hcode, -⟩, -⟩ := inv_completion ((engineTurn_of_busy hb).symm.trans h)
    exact hcode
  | false =>
    rw [engineTurn_of_not_busy hb] at h
    cases h
    exact hs

theorem takeTurn_errcode_lt {s t : State} (turn : Turn) (hs : s.errcode.toNat < 8) (h : s.takeTurn turn = .next t) :
    t.errcode.toNat < 8 := by
  cases turn with
  | host a =>
    cases h
    rcases hostAccess_errcode s a with hc | hc <;> rw [hc]
    · exact hs
    · decide
  | engine => exact engineTurn_errcode_lt hs h
  | reset =>
    cases h
    obtain ⟨⟨hcode, -⟩, -⟩ := inv_hardReset s
    exact hcode

/-- Settles O13: a completion's report is legal, and of the turns only the engine's reports a code. -/
theorem reservedCodesNeverRaised : Obligations.ReservedCodesNeverRaised := by
  refine ⟨fun i s t h => (exec_reportLegal h).1, fun s t hs h => ?_⟩
  unfold step at h
  split at h
  next => exact engineTurn_errcode_lt hs h
  next turn rest _ => exact takeTurn_errcode_lt (s := { s with agenda := rest }) turn hs h

/-! ### The interrupt -/

theorem irq_of_not_done {s : State} (h : s.done = false) : s.irq = false := by rw [State.irq, h, Bool.and_false]

theorem irq_of_not_ie {s : State} (h : s.ie = false) : s.irq = false := by rw [State.irq, h, Bool.false_and]

/-- Settles O23: each turn's next state, with the `IE` and `DONE` it leaves. -/
theorem interruptFollowsCompletion : Obligations.InterruptFollowsCompletion := by
  refine ⟨fun s t rest hb h => ?completion, fun s t rest w hidle h => ?issue, fun s t rest v hv h => ?acknowledge,
    fun s t rest v hv h => ?softReset, fun s t rest h => ?reset, fun s t rest v hv h => ?enable,
    fun s t rest size off h => ?read⟩
  case completion =>
    obtain ⟨u, hu, -, hdone, -, hie, -⟩ := everyCommandCompletes s rest hb
    cases hu.symm.trans h
    exact ⟨by rw [State.irq, hdone, hie, Bool.and_true], hdone⟩
  case issue =>
    rw [step_write_cmd_idle rest w hidle] at h
    cases h
    exact irq_of_not_done rfl
  case acknowledge =>
    rw [step_write_nonColliding s rest v rfl (by decide) rfl] at h
    cases h
    exact irq_of_not_done (by simp [regAt, State.writeReg, hv])
  case softReset =>
    rw [step_write_ctrl, State.writeCtrl_reset _ hv] at h
    cases h
    exact irq_of_not_done rfl
  case reset =>
    cases h
    exact irq_of_not_done rfl
  case enable =>
    rw [step_write_ctrl, State.writeCtrl_enable _ hv] at h
    cases h
    exact ⟨fun hset => by simp [State.irq, hset], fun hclear => irq_of_not_ie hclear⟩
  case read =>
    by_cases hok : size = .word ∧ off % 4 = 0 ∧ off < 0x1000
    · obtain ⟨rfl, halign, hlt⟩ := hok
      obtain ⟨c, n, hread, -⟩ := step_read_answers s rest halign hlt
      cases hread.symm.trans h
      rfl
    · rw [step_read_refused hok] at h
      cases h
      rfl

end Sys2Proof.Machine

/-! ## Reset and soft reset

Both resets are `State.hardReset`, whatever is in flight: what it leaves in each register (70_reset_and_hazards.md R270), and
which host accesses are one (R272). -/

namespace Sys2Proof.Machine

/-! ### The reset turn -/

/-- The reset input is one step and asks nothing of the state (70_reset_and_hazards.md R270, R273). -/
theorem step_reset_turn (s : State) (rest : List Turn) :
    step { s with agenda := .reset :: rest } = .next { s with agenda := rest }.hardReset := rfl

theorem hardReset_reset : State.reset.hardReset = State.reset := rfl

/-- After a reset every register of the window reads as in the reset state. -/
@[simp] theorem State.peek_hardReset (s : State) (r : Reg) : s.hardReset.peek r = State.reset.peek r := by cases r <;> rfl

/-- A reset clears every entry of the three digit buffers (70_reset_and_hazards.md R270). -/
theorem hardReset_buffers (s : State) (i : Nat) (h : i < 128) :
    s.hardReset.mod[i] = 0 ∧ s.hardReset.x[i] = 0 ∧ s.hardReset.y[i] = 0 := by
  simp [State.reset]

/-- The reset state too is the result of a reset, so R270's table is one about `State.hardReset`. -/
theorem eq_hardReset_of_reset {t : State}
    (h : t = State.reset ∨ ∃ (s : State) (rest : List Turn), step { s with agenda := .reset :: rest } = .next t) :
    ∃ u : State, t = u.hardReset := by
  rcases h with rfl | ⟨s, rest, hstep⟩
  · exact ⟨State.reset, hardReset_reset.symm⟩
  · rw [step_reset_turn] at hstep
    cases hstep
    exact ⟨_, rfl⟩

/-- Settles O11: the start of the induction whose step is `stepKeepsLegalReport`. -/
theorem resetHasLegalReport : Obligations.ResetHasLegalReport := inv_reset

/-- Settles O14: each row of the table is a field of `State.hardReset` or the content of a register after it. -/
theorem resetSetsEveryRegister : Obligations.ResetSetsEveryRegister := by
  refine ⟨fun s rest => ⟨_, step_reset_turn s rest⟩, fun t ht => ?_⟩
  obtain ⟨u, rfl⟩ := eq_hardReset_of_reset ht
  have hctrl : (u.hardReset.peek .ctrl).getLsbD 1 = false := by rw [State.peek_hardReset]; rfl
  have hstatus : u.hardReset.peek .status = 0 := by rw [State.peek_hardReset]; rfl
  exact ⟨rfl, rfl, rfl, hctrl, rfl, rfl, rfl, rfl, rfl, rfl, rfl, rfl, rfl, rfl, rfl, rfl, rfl, hardReset_buffers u, rfl,
    hstatus⟩

/-! ### Writes to `CTRL` -/

/-- With bit 1 set the write resets the block, idle or busy, whatever bit 0 is (70_reset_and_hazards.md R272). -/
theorem step_softReset (s : State) (rest : List Turn) {v : Word} (hv : v.getLsbD 1 = true) :
    step { s with agenda := .host (.write .word 0x008 v) :: rest } =
      .next { { s with agenda := rest }.hardReset with reply := some .written } := by
  rw [step_write_ctrl, State.writeCtrl_reset _ hv]

/-- With bit 1 clear the write sets `IE` and nothing else (70_reset_and_hazards.md R272). -/
theorem step_write_ctrl_enable (s : State) (rest : List Turn) {v : Word} (hv : v.getLsbD 1 = false) :
    step { s with agenda := .host (.write .word 0x008 v) :: rest } =
      .next { s with ie := v.getLsbD 0, agenda := rest, reply := some .written } := by
  rw [step_write_ctrl, State.writeCtrl_enable _ hv]

/-- Any other host access leaves the command in flight (70_reset_and_hazards.md R272). -/
theorem step_host_stillInFlight {s : State} {a : Access} (rest : List Turn) (hb : s.busy = true)
    (ha : a.isSoftReset = false) :
    ∃ t, step { s with agenda := .host a :: rest } = .next t ∧ StillInFlight s t :=
  ⟨_, rfl, hostAccess_stillInFlight (s := { s with agenda := rest }) hb ha⟩

/-- Settles O15: the two writes to `CTRL` by the value of bit 1, and every other access by `step_host_stillInFlight`. -/
theorem softResetResetsTheBlock : Obligations.SoftResetResetsTheBlock := by
  refine ⟨fun s rest v hv => ⟨_, step_softReset s rest hv, rfl, rfl, rfl⟩,
    fun s rest v hv => ⟨_, step_write_ctrl_enable s rest hv, rfl⟩, fun s rest a hb ha => ?other⟩
  case other =>
    obtain ⟨t, hstep, hbusy, hcmd, -⟩ := step_host_stillInFlight rest hb ha
    exact ⟨t, hstep, hbusy, hcmd⟩

end Sys2Proof.Machine

/-! ## Progress

Every step answers, and uses up one of the turns to come; so the engine moves within the agenda and one more step
(40_command.md R122, 93_implementation_defined.md section 1; log entry 1). -/

namespace Sys2Proof.Machine

/-! ### Every turn answers -/

/-- The engine's turn answers, leaves no command in flight and keeps the turns to come. -/
theorem engineTurn_answers (s : State) :
    ∃ t, s.engineTurn = .next t ∧ t.busy = false ∧ t.agenda = s.agenda := by
  cases hb : s.busy with
  | true =>
    obtain ⟨v, x, r, hcompletion⟩ := completion_cases s
    exact ⟨_, (engineTurn_of_busy hb).trans hcompletion, rfl, rfl⟩
  | false => exact ⟨s, engineTurn_of_not_busy hb, hb, rfl⟩

theorem takeTurn_answers (s : State) (turn : Turn) : ∃ t, s.takeTurn turn = .next t ∧ t.agenda = s.agenda := by
  cases turn with
  | host a => exact ⟨_, rfl, hostAccess_agenda s a⟩
  | engine =>
    obtain ⟨t, hturn, -, hagenda⟩ := engineTurn_answers s
    exact ⟨t, hturn, hagenda⟩
  | reset => exact ⟨_, rfl, rfl⟩

theorem step_of_no_turn {s : State} (h : s.agenda = []) : step s = s.engineTurn := by rw [step, h]

theorem step_of_turn {s : State} {turn : Turn} {rest : List Turn} (h : s.agenda = turn :: rest) :
    step s = { s with agenda := rest }.takeTurn turn := by rw [step, h]

/-- A step takes exactly the first of the turns to come, if any is left. -/
theorem step_answers (s : State) : ∃ t, step s = .next t ∧ t.agenda = s.agenda.tail := by
  cases h : s.agenda with
  | nil =>
    obtain ⟨t, hturn, -, hagenda⟩ := engineTurn_answers s
    exact ⟨t, (step_of_no_turn h).trans hturn, hagenda.trans h⟩
  | cons turn rest =>
    obtain ⟨t, hturn, hagenda⟩ := takeTurn_answers { s with agenda := rest } turn
    exact ⟨t, (step_of_turn h).trans hturn, hagenda⟩

/-- Settles O7: with a turn left the step is that turn, with none it is the engine's, and each of them answers. -/
theorem everyStepAnswersNext : Obligations.EveryStepAnswersNext := by
  intro s
  obtain ⟨t, hstep, -⟩ := step_answers s
  exact ⟨t, hstep⟩

/-! ### Fairness -/

/-- By induction on the turns to come: the last step is the engine's, which leaves no command in flight. -/
theorem run_past_agenda (turns : List Turn) : ∀ s : State, s.agenda = turns →
    ∃ t, Sys2Proof.core.run (turns.length + 1) s = .next t ∧ t.busy = false ∧ t.agenda = [] := by
  induction turns with
  | nil =>
    intro s hs
    obtain ⟨t, hturn, hbusy, hagenda⟩ := engineTurn_answers s
    exact ⟨t, core_run_succ ((step_of_no_turn hs).trans hturn) 0, hbusy, hagenda.trans hs⟩
  | cons turn rest ih =>
    intro s hs
    obtain ⟨u, hstep, hagenda⟩ := step_answers s
    obtain ⟨t, hrun, ht⟩ := ih u (by rw [hagenda, hs, List.tail_cons])
    exact ⟨t, (core_run_succ hstep _).trans hrun, ht⟩

/-- The engine is the next to move: it has the first turn, or no turn is left (log entry 1). -/
def EngineNext (turns : List Turn) : Prop := turns = [] ∨ turns.head? = some .engine

/-- Turns of which none abandons the command in flight are host accesses up to the engine's move. -/
theorem exists_hosts_engineNext (turns : List Turn) (h : ∀ turn ∈ turns, turn.abandons = false) :
    ∃ (as : List Access) (rest : List Turn), turns = as.map Turn.host ++ rest ∧ (∀ a ∈ as, a.isSoftReset = false) ∧
      EngineNext rest := by
  induction turns with
  | nil => exact ⟨[], [], rfl, by simp, .inl rfl⟩
  | cons turn turns ih =>
    obtain ⟨hturn, hturns⟩ := List.forall_mem_cons.1 h
    cases turn with
    | host a =>
      obtain ⟨as, rest, rfl, has, hrest⟩ := ih hturns
      exact ⟨a :: as, rest, rfl, List.forall_mem_cons.2 ⟨hturn, has⟩, hrest⟩
    | engine => exact ⟨[], .engine :: turns, rfl, by simp, .inr rfl⟩
    | reset => cases hturn

/-- Where the engine is next to move, a command in flight takes its completion step. -/
theorem step_of_engineNext {s : State} (hb : s.busy = true) (h : EngineNext s.agenda) :
    step s = { s with agenda := s.agenda.tail }.completion := by
  rcases h with hnil | hengine
  · have hkept : { s with agenda := s.agenda.tail } = s := by rw [hnil, List.tail_nil, ← hnil]
    rw [hkept, step_of_no_turn hnil, engineTurn_of_busy hb]
  · exact step_engine hb (List.eq_cons_of_mem_head? hengine)

/-- Settles O9: a run answers past its agenda (`run_past_agenda`), and where no turn abandons the command, the turns
before the engine's move are host accesses that keep the command and its data (`run_hosts_stillInFlight`). -/
theorem completionIsEventuallyTaken : Obligations.CompletionIsEventuallyTaken := by
  refine ⟨fun s => run_past_agenda s.agenda s rfl, fun s hb hs => ?completes⟩
  case completes =>
    obtain ⟨as, rest, hagenda, has, hrest⟩ := exists_hosts_engineNext s.agenda hs
    obtain ⟨u, hrun, hu, hbusy, hdata⟩ := run_hosts_stillInFlight as rest has s hb hagenda
    have hengine : EngineNext u.agenda := hu ▸ hrest
    have hstep := step_of_engineNext hbusy hengine
    obtain ⟨v, x, r, hcompletion⟩ := completion_cases { u with agenda := u.agenda.tail }
    refine ⟨as.length, u, _, ?_, hrun 0, ?_, hengine, hbusy, hdata, hstep, hstep.trans hcompletion, rfl, rfl⟩
    · simp only [hagenda, List.length_append, List.length_map, Nat.le_add_right]
    · rw [hu, hagenda, List.drop_left' (List.length_map _)]

end Sys2Proof.Machine
